-- ==== Sys2Proof/Word.lean ====
section
/-! DEFINITION. The word types: a 32-bit register or command word, and an 8-bit buffer cell. -/

namespace Sys2Proof

/-- A register or a command word: 32 bits (R17, R51). -/
abbrev Word := BitVec 32

/-- A buffer cell: 8 bits, one digit, one bit, one symbol or one frame byte (R10). -/
abbrev Byte := BitVec 8

end Sys2Proof
end

