-- ==== Sys2Proof/Syntax.lean ====
section
/-! DEFINITION. The nine commands (R3, R57), one constructor per row of the opcode table, their mnemonics (R61) and the four
pseudo-commands (R62). -/

namespace Sys2Proof

/-- A command. A base and a rank are natural numbers: the fields are the numbers themselves, unsigned and unscaled (R55, R56);
`WellFormed` says which numbers a field can hold (log 24). -/
inductive Instr where
  /-- `RADIX.CONVERT a, b` (R68). -/
  | radixConvert (sourceBase targetBase : Nat)
  /-- `CB.BUILD` (R86). -/
  | cbBuild
  /-- `CB.ENCODE r` (R89). -/
  | cbEncode (rank : Nat)
  /-- `CB.DECODE` (R90). -/
  | cbDecode
  /-- `FR.RANK` (R96). -/
  | frRank
  /-- `DICT.SER` (R105). -/
  | dictSer
  /-- `DICT.DES` (R113). -/
  | dictDes
  /-- `EGC.ENC` (R127). -/
  | egcEnc
  /-- `EGC.DEC` (R138). -/
  | egcDec
deriving DecidableEq, Repr

/-- The mnemonic of R57 and R61. -/
def Instr.mnemonic : Instr → String
  | .radixConvert _ _ => "RADIX.CONVERT"
  | .cbBuild => "CB.BUILD"
  | .cbEncode _ => "CB.ENCODE"
  | .cbDecode => "CB.DECODE"
  | .frRank => "FR.RANK"
  | .dictSer => "DICT.SER"
  | .dictDes => "DICT.DES"
  | .egcEnc => "EGC.ENC"
  | .egcDec => "EGC.DEC"

/-- `BITPACK` (R62). -/
def Instr.bitpack : Instr := .radixConvert 2 256
/-- `BITUNPACK` (R62). -/
def Instr.bitunpack : Instr := .radixConvert 256 2
/-- `TERPACK` (R62). -/
def Instr.terpack : Instr := .radixConvert 3 256
/-- `TERUNPACK` (R62). -/
def Instr.terunpack : Instr := .radixConvert 256 3

end Sys2Proof
end

