-- ==== Sys2Proof/WellFormed.lean ====
section
/-! DEFINITION. Which operands a command word can carry: the range of each field of R53 and R54. A base outside 2..256 is
well-formed (it is a value error of the command, R55, R72); a base that does not fit its nine bits is not. -/

namespace Sys2Proof

/-- A base field: nine bits, 0..511 (R53, R55). -/
abbrev FitsBaseField (base : Nat) : Prop := base < 512

/-- A rank field: `A[7:0]`, 0..255, with `A[8] = 0` (R54, R56). -/
abbrev FitsRankField (rank : Nat) : Prop := rank < 256

/-- Every operand fits its field. -/
abbrev Instr.WellFormed : Instr → Prop
  | .radixConvert a b => FitsBaseField a ∧ FitsBaseField b
  | .cbEncode r => FitsRankField r
  | .cbBuild | .cbDecode | .frRank | .dictSer | .dictDes | .egcEnc | .egcDec => True

/-- The same, as a Boolean. -/
def Instr.wellFormed : Instr → Bool
  | .radixConvert a b => decide (FitsBaseField a) && decide (FitsBaseField b)
  | .cbEncode r => decide (FitsRankField r)
  | .cbBuild | .cbDecode | .frRank | .dictSer | .dictDes | .egcEnc | .egcDec => true

end Sys2Proof
end

