-- ==== Sys2Proof/Decode.lean ====
section
/-! DEFINITION. The command word: its fields (R53), its decoder, total on every 32-bit word and rejecting by name (R58, R59),
and the encoder (R53, R54). -/

namespace Sys2Proof

/-- Why a word is an illegal command (R59). All of them end in the one error completion `ERR_ILLEGAL` (R153). -/
inductive IllegalCommand where
  /-- `RSV != 0`. -/
  | reservedField
  /-- `OPC = 0x00` or `OPC` in 0x0A..0xFF. -/
  | unknownOpcode
  /-- A format Z opcode with `A != 0` or `B != 0`; `CB.ENCODE` with `B != 0` or `A[8] = 1`. -/
  | operandField
  /-- Not one 32-bit word (R38, R51): no write of `CMD` carries it. -/
  | notOneWord
deriving DecidableEq, Repr

/-- `OPC = w[7:0]` (R53). -/
def fieldOpc (w : Word) : BitVec 8 := w.extractLsb' 0 8
/-- `A = w[16:8]` (R53). -/
def fieldA (w : Word) : BitVec 9 := w.extractLsb' 8 9
/-- `B = w[25:17]` (R53). -/
def fieldB (w : Word) : BitVec 9 := w.extractLsb' 17 9
/-- `RSV = w[31:26]` (R53). -/
def fieldRsv (w : Word) : BitVec 6 := w.extractLsb' 26 6

/-- Format Z: `A = 0` and `B = 0` (R54). -/
def decodeZ (w : Word) (i : Instr) : Except IllegalCommand Instr :=
  if fieldA w = 0 ∧ fieldB w = 0 then .ok i else .error .operandField

/-- Format K: `B = 0`, `A[8] = 0`, the rank in `A[7:0]` (R54, R56). -/
def decodeK (w : Word) (i : Nat → Instr) : Except IllegalCommand Instr :=
  if fieldB w = 0 ∧ (fieldA w).getLsbD 8 = false then .ok (i ((fieldA w).setWidth 8).toNat) else .error .operandField

/-- Format R: every value of the two base fields (R54, R55). -/
def decodeR (w : Word) (i : Nat → Nat → Instr) : Except IllegalCommand Instr :=
  .ok (i (fieldA w).toNat (fieldB w).toNat)

/-- The decoder of R58 over the opcode map of R57. -/
def decode (w : Word) : Except IllegalCommand Instr :=
  if fieldRsv w ≠ 0 then .error .reservedField
  else if fieldOpc w = 0x01 then decodeR w .radixConvert
  else if fieldOpc w = 0x02 then decodeZ w .cbBuild
  else if fieldOpc w = 0x03 then decodeK w .cbEncode
  else if fieldOpc w = 0x04 then decodeZ w .cbDecode
  else if fieldOpc w = 0x05 then decodeZ w .frRank
  else if fieldOpc w = 0x06 then decodeZ w .dictSer
  else if fieldOpc w = 0x07 then decodeZ w .dictDes
  else if fieldOpc w = 0x08 then decodeZ w .egcEnc
  else if fieldOpc w = 0x09 then decodeZ w .egcDec
  else .error .unknownOpcode

/-- The byte lanes of a register, lowest address first: little-endian (R41). -/
def bytesOfWord (w : Word) : List Byte :=
  [w.extractLsb' 0 8, w.extractLsb' 8 8, w.extractLsb' 16 8, w.extractLsb' 24 8]

/-- The word on four byte lanes, lowest address first (R41), and the decoder of it; any other number of bytes is no command
word (R38, R51; log 19). -/
def decodeBytes : List Byte → Except IllegalCommand Instr
  | [b0, b1, b2, b3] => decode (b3 ++ b2 ++ b1 ++ b0)
  | _ => .error .notOneWord

/-- `OPC + A * 2^8 + B * 2^17` with `RSV = 0` (R53). -/
def assemble (opc a b : Nat) : Word :=
  (0 : BitVec 6) ++ BitVec.ofNat 9 b ++ BitVec.ofNat 9 a ++ BitVec.ofNat 8 opc

/-- The word of a well-formed command (R54, R57). -/
def encode : Instr → Word
  | .radixConvert a b => assemble 0x01 a b
  | .cbBuild => assemble 0x02 0 0
  | .cbEncode r => assemble 0x03 r 0
  | .cbDecode => assemble 0x04 0 0
  | .frRank => assemble 0x05 0 0
  | .dictSer => assemble 0x06 0 0
  | .dictDes => assemble 0x07 0 0
  | .egcEnc => assemble 0x08 0 0
  | .egcDec => assemble 0x09 0 0

/-- A row of the opcode map (R57). -/
structure OpcodeRow where
  mnemonic : String
  matchWord : Word
  maskWord : Word
deriving DecidableEq, Repr

/-- A word selects a row when `(w and mask) = match` (R57). -/
def OpcodeRow.selects (row : OpcodeRow) (w : Word) : Bool := w &&& row.maskWord == row.matchWord

/-- The opcode map of R57. The decoder does not read it: that the two agree is a claim. -/
def opcodeTable : List OpcodeRow :=
  [⟨"RADIX.CONVERT", 0x00000001, 0xFC0000FF⟩, ⟨"CB.BUILD", 0x00000002, 0xFFFFFFFF⟩,
   ⟨"CB.ENCODE", 0x00000003, 0xFFFF00FF⟩, ⟨"CB.DECODE", 0x00000004, 0xFFFFFFFF⟩,
   ⟨"FR.RANK", 0x00000005, 0xFFFFFFFF⟩, ⟨"DICT.SER", 0x00000006, 0xFFFFFFFF⟩,
   ⟨"DICT.DES", 0x00000007, 0xFFFFFFFF⟩, ⟨"EGC.ENC", 0x00000008, 0xFFFFFFFF⟩,
   ⟨"EGC.DEC", 0x00000009, 0xFFFFFFFF⟩]

/-- The instruction the decoder reads from an opcode-table word of `nbits` bits, bits above them 0: the word laid out on the
byte lanes of `CMD` and decoded from there. -/
def decodeTableWord (nbits w : Nat) : Option Instr :=
  (decodeBytes (bytesOfWord (BitVec.ofNat 32 (w % 2 ^ nbits)))).toOption

end Sys2Proof
end

