-- ==== Sys2Proof/Config.lean ====
section
/-! DEFINITION. What the platform fixes (the two buffer capacities, R10) and the free values: the contents of cells that the
spec leaves unspecified. An opaque constant has no body, so nothing can be proved of its values. -/

namespace Sys2Proof

/-- `IN_CAP`, cells of the input buffer (R10, R30; U15: the default of the platform parameter, log 10). -/
abbrev Config.inCap : Nat := 65536

/-- `OUT_CAP`, cells of the output buffer (R10, R30; U15: the default of the platform parameter, log 10). -/
abbrev Config.outCap : Nat := 65536

/-- FREE VALUE (R33, R39, R171, U2; log 6): what cell `i` of `IN` holds while nothing has written it since the reset number
`epoch`: "some byte 0..255, fixed but unknown". -/
opaque Config.unwrittenInByte (epoch i : Nat) : Byte

/-- FREE VALUE (R20, R39, U3; log 7): what cell `i` of `OUT` reads as, for `i >= OUT_LEN`, after the completion or reset
number `epoch`: "a byte 0..255, may change at every completion". -/
opaque Config.staleOutByte (epoch i : Nat) : Byte

end Sys2Proof
end

