-- ==== Sys2Proof/Machine/State.lean ====
section
/-! DEFINITION. The state of the block (R17) as plain data, the host's side of the port (R34, R47), the outcomes a step can stop
with, and the state after reset (R33). -/

namespace Sys2Proof.Machine

/-- A buffer: (cell index, byte) pairs, indices strictly rising. An unlisted cell has no value of its own: its content is
unspecified (R33, R20), and what a reader then sees is a free value (`inCell`, `outCell`). -/
abbrev Memory := List Host.Cell

/-- One entry of the Codebook table (R29). -/
structure CbEntry where
  /-- `CB_LEN[r]`, the pattern length in bits. -/
  len : BitVec 5
  /-- `CB_BITS[r]`, the pattern as a number, right-aligned. -/
  bits : BitVec 16
deriving DecidableEq, Repr

/-- The causes of an error completion (R151). -/
inductive ErrCause where
  | illegal
  | base
  | digit
  | empty
  | dictOverflow
  | corrupt
  | capacity
deriving DecidableEq, Repr

/-- A host access of the block's window: `MemRead(BASE + off, width)` or `MemWrite(BASE + off, width, value)` (R13, R36). -/
inductive BusAccess where
  | read (off width : Nat)
  | write (off width value : Nat)
deriving DecidableEq, Repr

/-- What reaches the block from outside: an access of its one port, or its reset input (R47, R167). -/
inductive HostEvent where
  | access (a : BusAccess)
  /-- The reset input is asserted (`true`) or released (`false`). -/
  | resetInput (asserted : Bool)
deriving DecidableEq, Repr

/-- The port's answer to an access (R38 to R40). -/
inductive BusResponse where
  /-- A register read. -/
  | word (v : Word)
  /-- A window read. -/
  | byte (v : Byte)
  /-- A write, stored or ignored (R46). -/
  | ack
  /-- The bus error response (R40). -/
  | busError
deriving DecidableEq, Repr

/-- The whole state: the registers, buffers and table of R17, then the model's own fields (logs 2, 3, 6, 7). -/
structure State where
  /-- `CMD` (R22). -/
  cmd : Word
  /-- `STATUS.BUSY` (R24). -/
  busy : Bool
  /-- `STATUS.DONE` (R25). -/
  done : Bool
  /-- `STATUS.ERR` (R26). -/
  err : Bool
  /-- `STATUS.MATCH` (R27). -/
  matchFlag : Bool
  /-- `STATUS.CB_READY` (R28). -/
  cbReady : Bool
  /-- `STATUS.ERRCODE` (R26). -/
  errcode : BitVec 8
  /-- `IN_LEN` (R19). -/
  inLen : Word
  /-- `OUT_LEN` (R21). -/
  outLen : Word
  /-- `IN` (R18). -/
  inBuf : Memory
  /-- `OUT` (R20). -/
  outBuf : Memory
  /-- `CB`, 256 entries indexed by rank (R29). -/
  cb : List CbEntry
  /-- The level of the reset input: asserted or not (R167; log 14). -/
  resetAsserted : Bool
  /-- The model's own: how often the block has taken its reset values (log 6). -/
  resetCount : Nat
  /-- The model's own: completions so far, and how often the block has taken its reset values (log 7). -/
  completionCount : Nat
  /-- The model's own: host events not yet served, oldest first (log 2). -/
  port : List HostEvent
  /-- The model's own: the port's answers, oldest first (log 2). -/
  responses : List BusResponse
  /-- The model's own: for each command still to be started, how many host events land while it is in execution (log 3). -/
  latency : List Nat
  /-- The model's own: how many more host events land before the command in execution completes (log 3). -/
  busyFor : Nat
deriving DecidableEq, Repr

/-- A step of this machine never ends in a fault: the block takes no trap (R150), a command's errors are completions (R152) and
a wrong access gets a response (R40). So there is no constructor (log 13). -/
inductive Fault where
deriving DecidableEq, Repr

/-- Why a step has no next state. -/
inductive Refusal where
  /-- An instruction without a meaning; no arm of `exec` raises it. Safe: nothing is claimed of such a step. -/
  | notModelled (mnemonic : String)
  /-- Raised by `step` when an access other than a read of `STATUS` lands while a command is in execution: the BUSY
  rule forbids it and the spec asks for a refusal (R174, U5). Safe: the hardware's effect is unspecified. -/
  | accessWhileBusy
deriving DecidableEq, Repr

/-- The state after reset, the reset input released (R33, R167). Log 8 names the table's content, logs 2, 3, 6 and 7 the model's
own fields. -/
def State.reset : State where
  cmd := 0
  busy := false
  done := false
  err := false
  matchFlag := false
  cbReady := false
  errcode := 0
  inLen := 0
  outLen := 0
  inBuf := []
  outBuf := []
  cb := List.replicate 256 ⟨0, 0⟩
  resetAsserted := false
  resetCount := 0
  completionCount := 0
  port := []
  responses := []
  latency := []
  busyFor := 0

end Sys2Proof.Machine
end

