-- ==== Sys2Proof/Machine/Flags.lean ====
section
/-! DEFINITION. The flags: error codes (R151), the STATUS word (R23), and what a command's start and its completion do to them
(R24 to R28, R152). -/

namespace Sys2Proof.Machine

/-- `code(E)`, the value of `STATUS.ERRCODE` (R151). -/
def ErrCause.code : ErrCause → BitVec 8
  | .illegal => 0x01
  | .base => 0x02
  | .digit => 0x03
  | .empty => 0x04
  | .dictOverflow => 0x05
  | .corrupt => 0x06
  | .capacity => 0x07

/-- The word a read of `STATUS` returns (R23): bits [31:16] reserved, `ERRCODE`, bits [7:5] reserved, `CB_READY`, `MATCH`,
`ERR`, `DONE`, `BUSY`. -/
def State.statusWord (s : State) : Word :=
  (0 : BitVec 16) ++ s.errcode ++ (0 : BitVec 3) ++ BitVec.ofBool s.cbReady ++ BitVec.ofBool s.matchFlag
    ++ BitVec.ofBool s.err ++ BitVec.ofBool s.done ++ BitVec.ofBool s.busy

/-- The flags at a command's start: `BUSY <- 1`; `DONE`, `ERR`, `ERRCODE`, `MATCH` cleared; `CB_READY` kept (R24 to R28). -/
def startFlags (s : State) : State :=
  { s with busy := true, done := false, err := false, errcode := 0, matchFlag := false }

/-- The flags at a command's completion, with `cause = none` on success (R24 to R28, R152). -/
def endFlags (cause : Option ErrCause) (found : Bool) (s : State) : State :=
  { s with
    busy := false
    done := true
    err := cause.isSome
    errcode := (cause.map ErrCause.code).getD 0
    matchFlag := found }

end Sys2Proof.Machine
end

