-- ==== Sys2Proof/Machine/Ops.lean ====
section
/-! DEFINITION. The operations every command shares: reading and writing a buffer cell, a command's start (R22, R25 to R27), its
completion with a result or with an error (R152), and reset (R167). -/

namespace Sys2Proof.Machine

/-! ### Buffers -/

/-- The listed byte of a cell, if there is one. -/
def Memory.read (m : Memory) (i : Nat) : Option Byte := (m.find? fun c => c.1 == i).map (·.2)

/-- Store one cell, keeping the indices strictly rising. -/
def Memory.write : Memory → Nat → Byte → Memory
  | [], i, v => [(i, v)]
  | c :: cs, i, v => if i < c.1 then (i, v) :: c :: cs else if i = c.1 then (i, v) :: cs else c :: Memory.write cs i v

/-- The buffer that lists `s` at the cells `i, i + 1, ..` (R42: one element per cell, first element lowest). Every element of
a result is below 256 (R11), so no cell loses a bit (log 20). -/
def Memory.ofSeqAt : Nat → List Nat → Memory
  | _, [] => []
  | i, v :: vs => (i, BitVec.ofNat 8 v) :: Memory.ofSeqAt (i + 1) vs

/-- The buffer that lists `s` from cell 0 upward (R42, R44). -/
def Memory.ofSeq (s : List Nat) : Memory := Memory.ofSeqAt 0 s

/-- Canonical form: indices strictly rising. An unlisted cell has no value, so no entry can equal one. -/
def Memory.wf : Memory → Bool
  | [] => true
  | [_] => true
  | c :: d :: cs => decide (c.1 < d.1) && Memory.wf (d :: cs)

/-- Every listed cell exists: its index is below `cap`. -/
def Memory.below (cap : Nat) (m : Memory) : Bool := m.all fun c => decide (c.1 < cap)

/-- `IN[i]` (R18, R39). A cell not written since the last reset holds a fixed unknown byte (R33, R171, U2; log 6). -/
def inCell (s : State) (i : Nat) : Byte := (s.inBuf.read i).getD (Config.unwrittenInByte s.resetCount i)

/-- `OUT[i]`: the result for `i < OUT_LEN`, any byte from there on (R20, R39, U3; log 7). -/
def outCell (s : State) (i : Nat) : Byte :=
  if i < s.outLen.toNat then (s.outBuf.read i).getD (Config.staleOutByte s.completionCount i)
  else Config.staleOutByte s.completionCount i

/-! ### A command's start and completion -/

/-- A command starts: the word is stored, even an illegal one (R22, R59), `BUSY` is set and the flags of the last command are
cleared (R24 to R27, R164). This is the only way out of an error state. -/
def beginCommand (w : Word) (s : State) : State := { startFlags s with cmd := w }

/-- A completion, with a result (`cause = none`) or with an error: `OUT`, `OUT_LEN` and the flags are written together (R48,
R152). The cells of `OUT` beyond the result become unspecified (R20, R176). -/
def finish (cause : Option ErrCause) (out : List Nat) (found : Bool) (s : State) : State :=
  { endFlags cause found s with
    outBuf := Memory.ofSeq out
    outLen := BitVec.ofNat 32 out.length
    completionCount := s.completionCount + 1
    busyFor := 0 }

/-- `raise E`: the error completion of R152, the block's one form of exception. -/
def raise (cause : ErrCause) (s : State) : State := finish (some cause) [] false s

/-- `OUT <- out` and a completion without error (R13, R152). -/
def complete (out : List Nat) (found : Bool) (s : State) : State := finish none out found s

/-- `OUT <- r` behind the check `len(r) > OUT_CAP` (R74, R137, R159). -/
def deliver (r : List Nat) (s : State) : State :=
  if r.length > Config.outCap then raise .capacity s else complete r false s

/-- The end of a command whose function may raise (R113, R127, R138). -/
def deliverOrRaise (r : Except ErrCause (List Nat)) (s : State) : State :=
  match r with
  | .ok out => deliver out s
  | .error cause => raise cause s

/-! ### Reset -/

/-- The block takes its reset values (R167, R168): every register its own, and the buffers and the table become unspecified, also
in the middle of a command. What is outside the block, the level of its reset input and the host's side of the port, stays as it
is (log 14). -/
def resetBlock (s : State) : State :=
  { State.reset with
    resetAsserted := s.resetAsserted
    resetCount := s.resetCount + 1
    completionCount := s.completionCount + 1
    port := s.port
    responses := s.responses
    latency := s.latency }

/-- The reset input is asserted or released (R167): the block takes its reset values when the input is asserted, and again at the
release of an asserted input. The release of an input that is not asserted is nothing. -/
def setResetInput (asserted : Bool) (s : State) : State :=
  if asserted || s.resetAsserted then { resetBlock s with resetAsserted := asserted } else s

end Sys2Proof.Machine
end

