-- ==== Sys2Proof/Machine/Bus.lean ====
section
/-! DEFINITION. The host's port: the address map (R36, R37), register and window accesses (R38 to R40, R45, R46), the events while
a command runs (R174, R168), and the host-script verbs as lists of accesses (R63). -/

namespace Sys2Proof.Machine

/-- The registers of R37. -/
inductive Register where
  | cmd
  | status
  | inLen
  | outLen
  | inCap
  | outCap
  | reserved
deriving DecidableEq, Repr

/-- What an access of an offset and a width reaches. -/
inductive Target where
  | register (r : Register)
  | inWindow (i : Nat)
  | outWindow (i : Nat)
  | unmapped
deriving DecidableEq, Repr

/-- The register at an offset below 0x20 (R37). -/
def registerAt : Nat → Option Register
  | 0x00 => some .cmd
  | 0x04 => some .status
  | 0x08 => some .inLen
  | 0x0C => some .outLen
  | 0x10 => some .inCap
  | 0x14 => some .outCap
  | 0x18 => some .reserved
  | 0x1C => some .reserved
  | _ => none

/-- The address map (R36) under the width rules: a register only as one aligned 32-bit word (R38), a window cell only as one byte
(R39), everything else a bus error (R40). -/
def targetOf (off width : Nat) : Target :=
  if off < 0x20 then
    match registerAt off with
    | some r => if width = 4 then .register r else .unmapped
    | none => .unmapped
  else if off < 0x10000 then .unmapped
  else if off < 0x10000 + Config.inCap then
    if width = 1 then .inWindow (off - 0x10000) else .unmapped
  else if 0x20000 ≤ off ∧ off < 0x20000 + Config.outCap then
    if width = 1 then .outWindow (off - 0x20000) else .unmapped
  else .unmapped

/-- What a register reads as (R37, R30, R46). -/
def readRegister (s : State) : Register → Word
  | .cmd => s.cmd
  | .status => s.statusWord
  | .inLen => s.inLen
  | .outLen => s.outLen
  | .inCap => BitVec.ofNat 32 Config.inCap
  | .outCap => BitVec.ofNat 32 Config.outCap
  | .reserved => 0

/-- An accepted write of `CMD`: the command starts, and takes from `latency` how many host events land before it completes
(R22, R24, R178; log 3). DESIGN CHOICE (log 3): an illegal word takes its number from `latency` like any other, so that reads of
`STATUS` or the reset input may land while it is in execution; R59, R153 and D4 say that it completes 'at once', and U16 leaves
the duration of a command open. -/
def startCommand (w : Word) (s : State) : State :=
  { beginCommand w s with busyFor := s.latency.headD 0, latency := s.latency.tail }

/-- A write of a register: `CMD` starts a command, `IN_LEN` stores any value (R19), the others ignore it (R21, R23, R30, R46). -/
def writeRegister (w : Word) (s : State) : Register → State
  | .cmd => startCommand w s
  | .inLen => { s with inLen := w }
  | .status | .outLen | .inCap | .outCap | .reserved => s

/-- What an access is answered (R38 to R40). No read changes anything (R45). The ignored write of the OUT window (R39) is
acknowledged (log 17). -/
def respondTo (s : State) : BusAccess → BusResponse
  | .read off width =>
    match targetOf off width with
    | .register r => .word (readRegister s r)
    | .inWindow i => .byte (inCell s i)
    | .outWindow i => .byte (outCell s i)
    | .unmapped => .busError
  | .write off width _ =>
    match targetOf off width with
    | .register _ | .inWindow _ | .outWindow _ => .ack
    | .unmapped => .busError

/-- What an access does to the block: only a write of `CMD`, of `IN_LEN` or of a cell of `IN` does anything (R39, R40, R45, R46),
and nothing does while the reset input holds the state at its reset values (R167; log 14). A value is narrowed to its width
(log 18). -/
def effectOf (s : State) : BusAccess → State
  | .read _ _ => s
  | .write off width value =>
    if s.resetAsserted then s
    else
      match targetOf off width with
      | .register r => writeRegister (BitVec.ofNat 32 value) s r
      | .inWindow i => { s with inBuf := s.inBuf.write i (BitVec.ofNat 8 value) }
      | .outWindow _ | .unmapped => s

/-- Serve the first event of the port, `rest` remaining (R47): an access is answered from the state it finds. -/
def serve (e : HostEvent) (rest : List HostEvent) (s : State) : State :=
  match e with
  | .access a => { effectOf s a with port := rest, responses := s.responses ++ [respondTo s a] }
  | .resetInput asserted => { setResetInput asserted s with port := rest }

/-- The read of `STATUS`, the one access the BUSY rule allows while a command runs (R174). -/
abbrev isStatusRead (a : BusAccess) : Prop := a = .read 0x04 4

/-- An event has landed while a command runs: one fewer is to land before it completes (log 3); there is none to count when the
event was the reset input, which abandons the command. -/
def eventLanded (s : State) : State := { s with busyFor := s.busyFor - 1 }

/-- An event that lands while a command runs (R168, R174, U5): a read of `STATUS` is answered and the command runs on; the reset
input, when it is asserted, abandons the command; any other access is refused (log 11). -/
def serveBusy (e : HostEvent) (rest : List HostEvent) (s : State) : Host.Outcome State Fault Refusal :=
  match e with
  | .access a =>
    if isStatusRead a then .next (eventLanded (serve e rest s)) else .refused .accessWhileBusy
  | .resetInput _ => .next (eventLanded (serve e rest s))

/-! ### The host-script verbs of R63 as host events -/

/-- The byte writes of `LOAD`, from cell `i` upward (R63). -/
def loadCells : Nat → List Byte → List HostEvent
  | _, [] => []
  | i, v :: vs => .access (.write (0x10000 + i) 1 v.toNat) :: loadCells (i + 1) vs

/-- `LOAD s`: the cells, then `IN_LEN` (R63, R171). -/
def hostLoad (s : List Byte) : List HostEvent := loadCells 0 s ++ [.access (.write 0x08 4 s.length)]

/-- `ISSUE` of a word, with `polls` reads of `STATUS` (R63). -/
def hostIssue (w : Word) (polls : Nat) : List HostEvent :=
  .access (.write 0x00 4 w.toNat) :: List.replicate polls (.access (.read 0x04 4))

/-- The reads of `RESULT` for a result of `n` cells (R63). -/
def hostResult (n : Nat) : List HostEvent :=
  .access (.read 0x0C 4) :: (List.range n).map fun i => .access (.read (0x20000 + i) 1)

end Sys2Proof.Machine
end

