-- ==== Sys2Proof/Machine/Numerals.lean ====
section
/-! DEFINITION. Digit sequences, most significant digit first (R12, R42). Digits, bits, symbols and frame bytes are natural
numbers here (R11: no rule depends on a wrap; log 20); only the cells of the buffers are bit vectors. -/

namespace Sys2Proof.Machine

/-- `val_A(s)`, with `val_A([]) = 0` (R12). -/
def val (base : Nat) (s : List Nat) : Nat := s.foldl (fun acc d => acc * base + d) 0

/-- The base-`base` digits of `n` pushed in front of `acc`, least significant first; `fuel` bounds their number. -/
def pushDigits (base : Nat) : Nat → Nat → List Nat → List Nat
  | 0, _, acc => acc
  | fuel + 1, n, acc => if n = 0 then acc else pushDigits base fuel (n / base) (n % base :: acc)

/-- `canon_B(N)`: the numeral of `N` without a leading zero digit, and `[0]` for 0 (R12). A base of 2 or more needs at most
`log2 N + 1` digits (log 16). -/
def canon (base n : Nat) : List Nat := if n = 0 then [0] else pushDigits base (Nat.log2 n + 1) n []

/-- `bin(v)`: the minimal binary rendering, with `bin(0) = [0]` (R12, R108). -/
def bin (v : Nat) : List Nat := canon 2 v

/-- `bin_L(v)`: the `L`-digit binary rendering with leading zeros (R12). -/
def binFixed : Nat → Nat → List Nat
  | 0, _ => []
  | l + 1, v => v / 2 ^ l % 2 :: binFixed l v

/-- `neg8(a) = (256 - a) mod 256` (R12). -/
def neg8 (a : Nat) : Nat := (256 - a) % 256

/-- `rep(v, n)` (R12). -/
def rep (v n : Nat) : List Nat := List.replicate n v

/-- The number of 0 bits before the first 1 bit (R130). -/
def leadingZeros : List Nat → Nat
  | [] => 0
  | d :: ds => if d = 0 then leadingZeros ds + 1 else 0

end Sys2Proof.Machine
end

