-- ==== Sys2Proof/Machine/Operands.lean ====
section
/-! DEFINITION. Operands: the sequence operand `IN[0 .. IN_LEN)` with its capacity check (R13, R52, R159), and the checks on bases
and digits (R72, R73, R90). The scalar operands are read from the word by the decoder (R55, R56). -/

namespace Sys2Proof.Machine

/-- `in = IN[0 .. IN_LEN)` (R13, R18, R42). -/
def operand (s : State) : List Nat := (List.range s.inLen.toNat).map fun i => (inCell s i).toNat

/-- `IN_LEN <= IN_CAP` (R19, R159). -/
abbrev InLenFits (s : State) : Prop := s.inLen.toNat ≤ Config.inCap

/-- The first check of every command that reads `IN` (R159, R160): `IN_LEN > IN_CAP` raises `ERR_CAPACITY`. -/
def guardInLen (s : State) (k : State → State) : State :=
  if s.inLen.toNat > Config.inCap then raise .capacity s else k s

/-- A legal base: 2..256 (R9, R72). -/
abbrev LegalBase (base : Nat) : Prop := 2 ≤ base ∧ base ≤ 256

/-- Every element of the sequence is a digit of the base (R73; R90 with base 2). -/
abbrev AllDigits (base : Nat) (d : List Nat) : Prop := ∀ x ∈ d, x < base

end Sys2Proof.Machine
end

