-- ==== Sys2Proof/Machine/Codebook.lean ====
section
/-! DEFINITION. The Codebook family: `CB_PAT` (R81), the build of the table (R87), the two lookups over the table (R88, R91), and
`CB.BUILD`, `CB.ENCODE`, `CB.DECODE` (R86, R89, R90). -/

namespace Sys2Proof.Machine

/-- `CB_PAT(r)` (R81): `L - 2` zeros, then the `L` binary digits of `r + 2`. -/
def cbPat (r : Nat) : List Nat :=
  let b := r + 2
  let l := Nat.log2 b + 1
  rep 0 (l - 2) ++ binFixed l b

/-- The content `ENSURE_CB` writes: `CB_LEN[r] = len(CB_PAT(r))`, `CB_BITS[r] = r + 2` (R29, R87). -/
def cbBuilt : List CbEntry :=
  (List.range 256).map fun r => ⟨BitVec.ofNat 5 (cbPat r).length, BitVec.ofNat 16 (r + 2)⟩

/-- `ENSURE_CB()` (R87): the table is written once and never again (R28). -/
def ensureCb (s : State) : State := if s.cbReady then s else { s with cb := cbBuilt, cbReady := true }

/-- The bit pattern an entry holds: `CB_LEN` bits of `CB_BITS`, right-aligned (R29). -/
def CbEntry.pattern (e : CbEntry) : List Nat := binFixed e.len.toNat e.bits.toNat

/-- The pattern of a rank, read from the table (R89). -/
def cbPattern (cb : List CbEntry) (r : Nat) : List Nat := (cb[r]?.map CbEntry.pattern).getD []

/-- The rank whose entry holds the `len`-bit pattern of value `v`. `CB_BITS[r]` is always `r + 2` (R87, R94), so rank `v - 2` is
the only one whose entry can hold it (log 12). -/
def cbFind (cb : List CbEntry) (len v : Nat) : Option Nat :=
  if v < 2 then none
  else
    match cb[v - 2]? with
    | some e => if e.len.toNat = len ∧ e.bits.toNat = v then some (v - 2) else none
    | none => none

/-- `CB_LOOKUP(s)` over the table: the exact-match reverse lookup of a bit sequence (R88). -/
def cbLookup (cb : List CbEntry) (s : List Nat) : Option Nat := cbFind cb s.length (val 2 s)

/-- The growing-prefix match: `len` bits of value `v` have been read and match nothing; try one bit more (R91). It answers the
rank and the bits after the match. -/
def cbGrow (cb : List CbEntry) : Nat → Nat → List Nat → Option (Nat × List Nat)
  | _, _, [] => none
  | len, v, d :: ds =>
    match cbFind cb (len + 1) (v * 2 + d) with
    | some r => some (r, ds)
    | none => cbGrow cb (len + 1) (v * 2 + d) ds

/-- `CB_NEXT` on the remaining bits (R91). -/
def cbNext (cb : List CbEntry) (bits : List Nat) : Option (Nat × List Nat) := cbGrow cb 0 0 bits

/-- `CB.BUILD` (R86). -/
def execCbBuild (s : State) : Host.Outcome State Fault Refusal := .next (complete [] false (ensureCb s))

/-- `CB.ENCODE r` (R89): one bit per cell. -/
def execCbEncode (r : Nat) (s : State) : Host.Outcome State Fault Refusal :=
  let s := ensureCb s
  .next (complete (cbPattern s.cb r) false s)

/-- `CB.DECODE` (R90): not-found is an answer, not an error. -/
def execCbDecode (s : State) : Host.Outcome State Fault Refusal :=
  .next <| guardInLen s fun s =>
    let s := ensureCb s
    if ¬ AllDigits 2 (operand s) then raise .digit s
    else
      match cbLookup s.cb (operand s) with
      | some r => complete [r] true s
      | none => complete [] false s

end Sys2Proof.Machine
end

