-- ==== Sys2Proof/Machine/Radix.lean ====
section
/-! DEFINITION. The RadixConverter family: `CONVERT` by repeated long division (R69, R71) and `RADIX.CONVERT` (R68). -/

namespace Sys2Proof.Machine

/-- One sweep from left to right: each cell of `W` gets `value / target`, the remainder runs on, and the sweep's final
remainder is returned beside the new `W` (R69). -/
def sweep (source target : Nat) : Nat → List Nat → List Nat × Nat
  | rem, [] => ([], rem)
  | rem, d :: ds =>
    let value := rem * source + d
    let rest := sweep source target (value % target) ds
    (value / target :: rest.1, rest.2)

/-- Sweeps while some digit of `W` is not 0, each final remainder pushed on the stack; the head of `stack` is the last pushed
(R69). `fuel` bounds the number of sweeps. -/
def sweeps (source target : Nat) : Nat → List Nat → List Nat → List Nat
  | 0, _, stack => stack
  | fuel + 1, w, stack =>
    if w.all (· == 0) then stack
    else
      let swept := sweep source target 0 w
      sweeps source target fuel swept.1 (swept.2 :: stack)

/-- `CONVERT(d, A, B)` (R67, R69, R71). Legal bases need at most eight sweeps for each digit of the operand (log 15). -/
def convert (d : List Nat) (source target : Nat) : List Nat :=
  if d.all (· == 0) then [0] else sweeps source target (8 * d.length) d []

/-- `RADIX.CONVERT a, b` (R68, R72 to R74): capacity, bases, digits, conversion, capacity of the result. -/
def execRadixConvert (a b : Nat) (s : State) : Host.Outcome State Fault Refusal :=
  .next <| guardInLen s fun s =>
    if ¬ (LegalBase a ∧ LegalBase b) then raise .base s
    else if ¬ AllDigits a (operand s) then raise .digit s
    else deliver (convert (operand s) a b) s

end Sys2Proof.Machine
end

