-- ==== Sys2Proof/Machine/Dictionary.lean ====
section
/-! DEFINITION. The DictionaryCodec family: `DICT_SER` (R106 to R109), `DICT_DES` (R114 to R118), and `DICT.SER`, `DICT.DES`
(R105, R113). -/

namespace Sys2Proof.Machine

/-- Step (a): differences modulo 256, each element minus the one before it, `prev` before the first (R106). -/
def deltas : Nat → List Nat → List Nat
  | _, [] => []
  | prev, v :: vs => (v + 256 - prev) % 256 :: deltas v vs

/-- Steps (b) to (d): the minimum, then every difference less the minimum (R107). -/
def minShift (d : List Nat) : List Nat :=
  let m := d.min?.getD 0
  m :: d.map (· - m)

/-- Steps (e), (f): every element in minimal binary, each behind the delimiter digit 2 (R108). -/
def renderTernary (x : List Nat) : List Nat := x.flatMap fun v => 2 :: bin v

/-- `DICT_SER(s)`, for a list that is not empty (R109). -/
def dictSerialize (s : List Nat) : List Nat := convert (renderTernary (minShift (deltas 0 s))) 3 256

/-- The digits before the first delimiter, and the groups, one opened by each delimiter (R115). -/
def splitGroups : List Nat → List Nat × List (List Nat)
  | [] => ([], [])
  | d :: ds =>
    let rest := splitGroups ds
    if d = 2 then ([], rest.1 :: rest.2) else (d :: rest.1, rest.2)

/-- The running sum modulo 256 of the elements with `m` added back (R117). -/
def integrate (m : Nat) : Nat → List Nat → List Nat
  | _, [] => []
  | acc, x :: xs =>
    let acc := (acc + (x + m) % 256) % 256
    acc :: integrate m acc xs

/-- Un-shifting and integrating the parsed groups; the first of them is `m` (R117). -/
def unshift : List Nat → List Nat
  | [] => []
  | m :: xs => integrate m 0 xs

/-- `DICT_DES(bytes)` (R114 to R118): corrupt when the ternary numeral does not start with the delimiter or a group is no
byte. -/
def dictDeserialize (bytes : List Nat) : Except ErrCause (List Nat) :=
  let t := convert bytes 256 3
  if t.head? ≠ some 2 then .error .corrupt
  else
    let x := (splitGroups t).2.map (val 2)
    if ¬ AllDigits 256 x then .error .corrupt else .ok (unshift x)

/-- `DICT.SER` (R105, R111). -/
def execDictSer (s : State) : Host.Outcome State Fault Refusal :=
  .next <| guardInLen s fun s =>
    if s.inLen = 0 then raise .empty s else deliver (dictSerialize (operand s)) s

/-- `DICT.DES` (R113). -/
def execDictDes (s : State) : Host.Outcome State Fault Refusal :=
  .next <| guardInLen s fun s => deliverOrRaise (dictDeserialize (operand s)) s

end Sys2Proof.Machine
end

