-- ==== Sys2Proof/Machine/Ranker.lean ====
section
/-! DEFINITION. The FrequencyRanker family: `RANK_ORDER` (R97, R98) and `FR.RANK` (R96). -/

namespace Sys2Proof.Machine

/-- `FREQ[v]`: the occurrences of `v` (R97). -/
def freq (s : List Nat) (v : Nat) : Nat := s.count v

/-- The 256 (value, count) pairs in ascending order of the value (R95, R97). -/
def freqTable (s : List Nat) : List (Nat × Nat) := (List.range 256).map fun v => (v, freq s v)

/-- The order of R98: descending count, then ascending value. -/
abbrev RanksBefore (p q : Nat × Nat) : Prop := q.2 < p.2 ∨ (p.2 = q.2 ∧ p.1 ≤ q.1)

/-- `RANK_ORDER(s)` (R98): the pairs sorted, and of them the first `K`, where `K` is the number of non-zero counts. -/
def rankOrder (s : List Nat) : List Nat :=
  (((freqTable s).insertionSort RanksBefore).take ((freqTable s).countP fun p => 0 < p.2)).map (·.1)

/-- `RANKTAB[v]`: the index of a present value in the symbol list (R99). -/
def rankOf (sym : List Nat) (v : Nat) : Nat := sym.idxOf v

/-- `FR.RANK` (R96): the symbol list, rank 0 first; an empty operand gives the empty list (R100). -/
def execFrRank (s : State) : Host.Outcome State Fault Refusal :=
  .next <| guardInLen s fun s => complete (rankOrder (operand s)) false s

end Sys2Proof.Machine
end

