-- ==== Sys2Proof/Machine/Adaptive.lean ====
section
/-! DEFINITION. The AdaptiveCodec family: `EGC_ENC` (R129 to R135), `EGC_DEC` (R139 to R145), and `EGC.ENC`, `EGC.DEC` (R127,
R138). -/

namespace Sys2Proof.Machine

/-- Step (3): the patterns of the ranks of the input's bytes, in input order (R129). -/
def encodeBits (cb : List CbEntry) (sym input : List Nat) : List Nat :=
  input.flatMap fun v => cbPattern cb (rankOf sym v)

/-- Steps (4) to (7) for a bit sequence and a symbol list: the frame, or the dictionary overflow (R130 to R134). -/
def assembleFrame (bits sym : List Nat) : Except ErrCause (List Nat) :=
  let dictPayload := dictSerialize sym
  if dictPayload.length > 255 then .error .dictOverflow
  else .ok ([neg8 dictPayload.length, leadingZeros bits] ++ convert bits 2 256 ++ dictPayload)

/-- `EGC_ENC(in)` (R128, R135). -/
def egcEncode (cb : List CbEntry) (input : List Nat) : Except ErrCause (List Nat) :=
  if input = [] then .error .empty
  else
    let sym := rankOrder input
    assembleFrame (encodeBits cb sym input) sym

/-- The greedy parse (R144): a symbol for each matched pattern; corrupt when the stream ends inside a candidate or a rank has no
symbol. Each match takes at least one bit, so the number of bits is fuel enough
(log 16). -/
def greedyParse (cb : List CbEntry) (sym : List Nat) : Nat → List Nat → Except ErrCause (List Nat)
  | _, [] => .ok []
  | 0, _ :: _ => .error .corrupt
  | fuel + 1, bit :: bits =>
    match cbNext cb (bit :: bits) with
    | none => .error .corrupt
    | some (r, rest) =>
      match sym[r]? with
      | none => .error .corrupt
      | some v => (greedyParse cb sym fuel rest).map (v :: ·)

/-- Steps (5) and (6) for the two payloads and the leading-zero count (R142 to R144). -/
def decodePayloads (cb : List CbEntry) (lz : Nat) (bitPayload dictPayload : List Nat) : Except ErrCause (List Nat) :=
  match dictDeserialize dictPayload with
  | .error cause => .error cause
  | .ok sym =>
    let bits := rep 0 lz ++ convert bitPayload 256 2
    greedyParse cb sym bits.length bits

/-- `EGC_DEC(frame)` (R139 to R141, R145). -/
def egcDecode (cb : List CbEntry) (frame : List Nat) : Except ErrCause (List Nat) :=
  match frame with
  | lenNeg :: lz :: payload =>
    let dictLen := neg8 lenNeg
    if frame.length < 3 ∨ 2 + dictLen > frame.length then .error .corrupt
    else
      let split := payload.length - dictLen
      decodePayloads cb lz (payload.take split) (payload.drop split)
  | _ => .error .corrupt

/-- `EGC.ENC` (R127): the Codebook is ensured before the operand is looked at. -/
def execEgcEnc (s : State) : Host.Outcome State Fault Refusal :=
  .next <| guardInLen s fun s =>
    let s := ensureCb s
    deliverOrRaise (egcEncode s.cb (operand s)) s

/-- `EGC.DEC` (R138). -/
def execEgcDec (s : State) : Host.Outcome State Fault Refusal :=
  .next <| guardInLen s fun s =>
    let s := ensureCb s
    deliverOrRaise (egcDecode s.cb (operand s)) s

end Sys2Proof.Machine
end

