-- ==== Sys2Proof/Machine/Dispatch.lean ====
section
/-! DEFINITION. One arm per command: the completion of the command in execution (R3, R57). -/

namespace Sys2Proof.Machine

def exec (i : Instr) (s : State) : Host.Outcome State Fault Refusal :=
  match i with
  | .radixConvert a b => Sys2Proof.Machine.execRadixConvert a b s
  | .cbBuild => Sys2Proof.Machine.execCbBuild s
  | .cbEncode r => Sys2Proof.Machine.execCbEncode r s
  | .cbDecode => Sys2Proof.Machine.execCbDecode s
  | .frRank => Sys2Proof.Machine.execFrRank s
  | .dictSer => Sys2Proof.Machine.execDictSer s
  | .dictDes => Sys2Proof.Machine.execDictDes s
  | .egcEnc => Sys2Proof.Machine.execEgcEnc s
  | .egcDec => Sys2Proof.Machine.execEgcDec s

end Sys2Proof.Machine
end

