-- ==== Sys2Proof/Machine/Step.lean ====
section
/-! DEFINITION. One step of the machine. While no command runs, a step serves the next host event (R47), and with none the block is
idle (R169, R179). While a command runs, a step is an event that lands before the completion, or the completion itself
(R174, R175, R177; logs 1 and 3). -/

namespace Sys2Proof.Machine

/-- The completion of the command in `CMD`: a legal word runs its command, an illegal one is the error completion
`ERR_ILLEGAL` (R16, R58, R59, R153). -/
def completeCommand (s : State) : Host.Outcome State Fault Refusal :=
  match decode s.cmd with
  | .ok i => exec i s
  | .error _ => .next (raise .illegal s)

/-- One step. -/
def step (s : State) : Host.Outcome State Fault Refusal :=
  match s.busy, s.busyFor, s.port with
  | false, _, [] => .next s
  | false, _, e :: rest => .next (serve e rest s)
  | true, 0, _ => completeCommand s
  | true, _ + 1, [] => completeCommand s
  | true, _ + 1, e :: rest => serveBusy e rest s

/-- `s` right after the host's write of this word to `CMD` was accepted, with no event to land before the completion: the next
step runs the command (R16, R22; log 4). -/
def State.withFetchWord (s : State) (nbits w : Nat) : State :=
  { beginCommand (BitVec.ofNat 32 (w % 2 ^ nbits)) s with busyFor := 0 }

end Sys2Proof.Machine
end

