-- ==== Sys2Proof/Safety.lean ====
section
/-! DEFINITION. The terms the claims use: the invariant of the machine, the states a command
ends in written out field by field, and what a frame is and decodes to. -/

namespace Sys2Proof.Machine

/-- What holds in every state a run from reset reaches, whatever the host does. -/
structure State.Inv (s : State) : Prop where
  /-- `IN` is in canonical form. -/
  inWf : s.inBuf.wf = true
  /-- Only cells that exist are listed (R18). -/
  inBelow : s.inBuf.below Config.inCap = true
  /-- `OUT` is in canonical form. -/
  outWf : s.outBuf.wf = true
  /-- No cell at or beyond `OUT_LEN` is listed (R20). -/
  outBelow : s.outBuf.below s.outLen.toNat = true
  /-- Every cell below `OUT_LEN` holds the result (R20). -/
  outListed : (List.range s.outLen.toNat).all (fun i => (s.outBuf.read i).isSome) = true
  /-- `OUT_LEN <= OUT_CAP` (R21). -/
  outFits : s.outLen.toNat ≤ Config.outCap
  /-- The table has 256 entries (R29). -/
  cbLength : s.cb.length = 256
  /-- Once `CB_READY` is 1 the table holds the Codebook (R28, R29, R87). -/
  cbContent : s.cbReady = true → s.cb = cbBuilt
  /-- `BUSY` and `DONE` are never both 1 (R25). -/
  busyOrDone : ¬ (s.busy = true ∧ s.done = true)
  /-- `ERRCODE` is 0 when `ERR` is 0 (R23). -/
  noErrNoCode : s.err = false → s.errcode = 0
  /-- `ERR` is 1 only after an error completion, which left a code 1..7, no result and no match (R26, R151, R152). -/
  errCompletion : s.err = true →
    s.done = true ∧ s.outLen = 0 ∧ s.matchFlag = false ∧ 1 ≤ s.errcode.toNat ∧ s.errcode.toNat ≤ 7
  /-- `MATCH` is 1 only after a found lookup, whose result is one rank (R27, R90). -/
  matchCompletion : s.matchFlag = true → s.done = true ∧ s.err = false ∧ s.outLen = 1
  /-- While the reset input is asserted the registers hold their reset values and no cell of `IN` is specified (R33, R167). -/
  heldInReset : s.resetAsserted = true → s.cmd = 0 ∧ s.statusWord = 0 ∧ s.inLen = 0 ∧ s.outLen = 0 ∧ s.inBuf = []

/-- The state after a command's completion with the result `out`, and without error (R152): every field not named here is as
before. -/
def afterSuccess (s : State) (out : List Nat) (found : Bool) : State :=
  { s with
    busy := false
    done := true
    err := false
    errcode := 0
    matchFlag := found
    outLen := BitVec.ofNat 32 out.length
    outBuf := Memory.ofSeq out
    completionCount := s.completionCount + 1
    busyFor := 0 }

/-- The state after an error completion with the code `code` (R152): no result, and every field not named here as before. -/
def afterError (s : State) (code : BitVec 8) : State :=
  { s with
    busy := false
    done := true
    err := true
    errcode := code
    matchFlag := false
    outLen := 0
    outBuf := []
    completionCount := s.completionCount + 1
    busyFor := 0 }

/-- The state with the Codebook built (R87). -/
def withCodebook (s : State) : State := { s with cb := cbBuilt, cbReady := true }

/-- The commands that build the Codebook when it is not built (R87): `CB.BUILD` and `CB.ENCODE` always, the others once the
check `IN_LEN <= IN_CAP` has passed. -/
def UsesCodebook (i : Instr) (s : State) : Prop :=
  match i with
  | .cbBuild | .cbEncode _ => True
  | .cbDecode | .egcEnc | .egcDec => InLenFits s
  | .radixConvert _ _ | .frRank | .dictSer | .dictDes => False

/-- The result sequence `OUT[0 .. OUT_LEN)` (R20). -/
def result (s : State) : List Nat := (List.range s.outLen.toNat).map fun i => (outCell s i).toNat

/-- The words R59 calls illegal. -/
abbrev IllegalByRule (w : Word) : Prop :=
  w.extractLsb' 26 6 ≠ 0 ∨ w.extractLsb' 0 8 = 0x00 ∨ 0x0A ≤ (w.extractLsb' 0 8).toNat ∨
  ((w.extractLsb' 0 8).toNat ∈ [0x02, 0x04, 0x05, 0x06, 0x07, 0x08, 0x09] ∧
    (w.extractLsb' 8 9 ≠ 0 ∨ w.extractLsb' 17 9 ≠ 0)) ∨
  (w.extractLsb' 0 8 = 0x03 ∧ (w.extractLsb' 17 9 ≠ 0 ∨ w.getLsbD 16 = true))

/-- The accesses that reach something (R38, R39): an aligned word below 0x20, or one byte of a window. -/
def LegalAccess (off width : Nat) : Prop :=
  (off < 0x20 ∧ off % 4 = 0 ∧ width = 4) ∨ (0x10000 ≤ off ∧ off < 0x30000 ∧ width = 1)

/-- Every element is a byte. -/
abbrev IsBytes (s : List Nat) : Prop := ∀ x ∈ s, x < 256

/-- The serialised symbol list (R106 to R109), the conversion in its closed form (R70). -/
def dictPayloadOf (sym : List Nat) : List Nat := canon 256 (val 3 (renderTernary (minShift (deltas 0 sym))))

/-- The bit sequence of an input (R129). -/
def bitsOf (x : List Nat) : List Nat := x.flatMap fun v => cbPat (rankOf (rankOrder x) v)

/-- The frame of an input (R126, R130 to R134). -/
def frameOf (x : List Nat) : List Nat :=
  [(256 - (dictPayloadOf (rankOrder x)).length) % 256, leadingZeros (bitsOf x)]
    ++ canon 256 (val 2 (bitsOf x)) ++ dictPayloadOf (rankOrder x)

/-- The ternary numeral of a dictionary payload (R114). -/
def ternaryOf (payload : List Nat) : List Nat := canon 3 (val 256 payload)

/-- `groups` are the groups of a ternary numeral that starts with a delimiter (R115): each delimiter opens one, and no group
holds a delimiter. -/
def GroupsOf (t : List Nat) (groups : List (List Nat)) : Prop :=
  t = groups.flatMap (2 :: ·) ∧ groups ≠ [] ∧ ∀ g ∈ groups, AllDigits 2 g

/-- The symbols of a payload with the parsed groups `m :: x` (R117): the running sum of `x[j] + m`, modulo 256. -/
def symbolsOf (m : Nat) (x : List Nat) : List Nat :=
  (List.range x.length).map fun j => ((x.take (j + 1)).map (· + m)).sum % 256

/-- A dictionary payload and the symbol list it holds (R114 to R118). -/
def PayloadHolds (payload sym : List Nat) : Prop :=
  ∃ (g : List Nat) (groups : List (List Nat)), GroupsOf (ternaryOf payload) (g :: groups) ∧ (∀ q ∈ g :: groups, val 2 q < 256) ∧
    sym = symbolsOf (val 2 g) (groups.map (val 2))

/-- A frame and the bytes it decodes to (R139 to R145): the payloads split where the length byte says, the bit stream a
concatenation of patterns, and every rank with a symbol. -/
def FrameHolds (frame out : List Nat) : Prop :=
  ∃ (lenNeg lz : Nat) (bitPayload dictPayload sym ranks : List Nat),
    frame = lenNeg :: lz :: (bitPayload ++ dictPayload) ∧ dictPayload.length = (256 - lenNeg) % 256 ∧
    PayloadHolds dictPayload sym ∧ rep 0 lz ++ canon 2 (val 256 bitPayload) = ranks.flatMap cbPat ∧
    (∀ r ∈ ranks, r < 256 ∧ r < sym.length) ∧ out = ranks.map fun r => sym.getD r 0

end Sys2Proof.Machine
end

