-- ==== Sys2Proof/Certificates/Slice0/Obligations.lean ====
section
/-! DEFINITION. What is claimed of the model. Each docstring names the rule of spec/ the statement formalises; a statement that rests
on a choice of the model says so and names the log entry. -/

open Sys2Proof Sys2Proof.Machine

/-! ### The command word -/

/-- R53 to R56, R58: no bit of an encoding is dropped. -/
def Obligations.DecodeOfEncodeIsTheCommand : Prop :=
  ∀ i : Instr, i.WellFormed → decode (encode i) = .ok i

/-- R53, R54: a word has no spare bits; the encoder gives back the word the decoder read. -/
def Obligations.EncodeOfDecodeIsTheWord : Prop :=
  ∀ (w : Word) (i : Instr), decode w = .ok i → i.WellFormed ∧ encode i = w

/-- R57, R58: the decoder and the match and mask of the opcode map agree on every word; at most one row selects it. -/
def Obligations.EveryWordSelectsOneRowOrIsIllegal : Prop :=
  ∀ w : Word, (opcodeTable.filter (·.selects w)).map (·.mnemonic) =
    match decode w with
    | .ok i => [i.mnemonic]
    | .error _ => []

/-- R59, R153: exactly the words R59 lists are illegal, and the completion step of such a command is the error completion
`ERR_ILLEGAL`: it reads no buffer, builds no Codebook and writes only `STATUS` and `OUT_LEN` (the cells of `OUT` become unspecified).
R59 says 'at once'; that the completion is a step of its own (log 1), and that host events may land before it when `busyFor` is
above 0, for an illegal word as for a legal one (log 3), are the model's choices. -/
def Obligations.IllegalWordsEndInErrIllegal : Prop :=
  ∀ s : State, s.busy = true → s.busyFor = 0 ∨ s.port = [] →
    (IllegalByRule s.cmd → step s = .next (afterError s 0x01)) ∧
    (¬ IllegalByRule s.cmd → ∃ i, decode s.cmd = .ok i ∧ step s = exec i s)

/-- Words of R61 and R62 written out from the encoding: the nine commands, the four pseudo-commands, the widest fields. -/
def Obligations.WordsOfTheSpecDecode : Prop :=
  decode 0x02000201 = .ok .bitpack ∧ decode 0x00050001 = .ok .bitunpack ∧ decode 0x02000301 = .ok .terpack ∧
  decode 0x00070001 = .ok .terunpack ∧ decode 0x03FFFF01 = .ok (.radixConvert 511 511) ∧ decode 0x00000002 = .ok .cbBuild ∧
  decode 0x0000FF03 = .ok (.cbEncode 255) ∧ decode 0x00000004 = .ok .cbDecode ∧ decode 0x00000005 = .ok .frRank ∧
  decode 0x00000006 = .ok .dictSer ∧ decode 0x00000007 = .ok .dictDes ∧ decode 0x00000008 = .ok .egcEnc ∧
  decode 0x00000009 = .ok .egcDec

/-! ### Steps -/

/-- R16, R24, R177: the completion step of a running command is the meaning of the command in `CMD`, with nothing around it; that
the completion is a step of its own is the model's choice (R175, log 1). -/
def Obligations.StepRunsTheDecodedCommand : Prop :=
  ∀ (s : State) (i : Instr), s.busy = true → s.busyFor = 0 ∨ s.port = [] → decode s.cmd = .ok i → step s = exec i s

/-- R22, R24 to R28: a write of `CMD` while `BUSY = 0` and the reset input is not asserted stores the word and starts the command. How many events land before the
completion comes from the model's own `latency` (log 3). -/
def Obligations.WriteOfCmdStartsTheCommand : Prop :=
  ∀ (s : State) (v : Nat) (rest : List HostEvent), s.busy = false → s.resetAsserted = false →
    s.port = .access (.write 0x00 4 v) :: rest →
    step s = .next { s with
      cmd := BitVec.ofNat 32 v, busy := true, done := false, err := false, errcode := 0, matchFlag := false
      port := rest, responses := s.responses ++ [.ack], busyFor := s.latency.headD 0, latency := s.latency.tail }

/-- R177: a started command completes after finitely many steps while the host does what R174 allows, and `DONE` is then 1; the
operand is untouched. How many events land before the completion is the model's own `busyFor` (log 3). -/
def Obligations.EveryStartedCommandReachesDone : Prop :=
  ∀ s : State, s.busy = true → (∀ e ∈ s.port.take s.busyFor, e = .access (.read 0x04 4)) →
    ∃ k t, k ≤ s.busyFor + 1 ∧ Host.Core.run Sys2Proof.core k s = .next t ∧
      t.busy = false ∧ t.done = true ∧ t.cmd = s.cmd ∧ t.inLen = s.inLen ∧ operand t = operand s

/-- The model's reading of R174 and U5 (log 11): the BUSY rule is the only thing that stops the machine. A step has no next state
exactly when a host access other than a read of `STATUS` lands while a command runs and is not yet to complete (`busyFor` above 0);
it is then refused by that name, and no step ends in a fault (log 13). R174 forbids such accesses until a read of `STATUS` has
returned `DONE = 1`; those between the completion and that read are served here. -/
def Obligations.OnlyTheBusyRuleStopsAStep : Prop :=
  ∀ s : State,
    (step s = .refused .accessWhileBusy ↔
      s.busy = true ∧ s.busyFor ≠ 0 ∧ ∃ a rest, s.port = .access a :: rest ∧ a ≠ .read 0x04 4) ∧
    (step s = .refused .accessWhileBusy ∨ ∃ t, step s = .next t)

/-- R24, R25: a read of `STATUS` that lands while the command runs is answered with `BUSY = 1` and `DONE = 0`, and changes nothing of
the block. -/
def Obligations.PollWhileBusyReadsBusy : Prop :=
  ∀ (s : State) (n : Nat) (rest : List HostEvent), s.Inv → s.busy = true → s.busyFor = n + 1 →
    s.port = .access (.read 0x04 4) :: rest →
    ∃ w : Word, w.getLsbD 0 = true ∧ w.getLsbD 1 = false ∧
      step s = .next { s with port := rest, responses := s.responses ++ [.word w], busyFor := n }

/-! ### Reset and the invariant -/

/-- R33: the registers and the STATUS word after reset. -/
def Obligations.ResetLeavesTheSpecifiedValues : Prop :=
  State.reset.cmd = 0x00000000 ∧ State.reset.statusWord = 0x00000000 ∧ State.reset.inLen = 0 ∧ State.reset.outLen = 0 ∧
  readRegister State.reset .inCap = 0x00010000 ∧ readRegister State.reset .outCap = 0x00010000

/-- R167, R168: when the reset input is asserted, between commands or inside one, and when it is released again, the registers take
their reset values, the command is abandoned, and every cell of `IN` and `OUT` becomes unspecified (a free value of a new epoch, logs
6 and 7). While it is asserted no access changes the state of the block, so the values hold. What an access is then answered, that
the release of an input that is not asserted is nothing, and what the reset leaves of the host's side are log 14. -/
def Obligations.ResetInputHoldsTheResetValues : Prop :=
  ∀ (s : State) (rest : List HostEvent),
    (∀ asserted : Bool, s.busy = false ∨ s.busyFor ≠ 0 → asserted = true ∨ s.resetAsserted = true →
      s.port = .resetInput asserted :: rest →
      ∃ t, step s = .next t ∧ t.resetAsserted = asserted ∧ t.cmd = 0 ∧ t.statusWord = 0 ∧ t.inLen = 0 ∧ t.outLen = 0 ∧
        (∀ i, inCell t i = Config.unwrittenInByte (s.resetCount + 1) i) ∧
        (∀ i, outCell t i = Config.staleOutByte (s.completionCount + 1) i) ∧
        t.port = rest ∧ t.responses = s.responses) ∧
    (∀ a : BusAccess, s.busy = false → s.resetAsserted = true → s.port = .access a :: rest →
      step s = .next { s with port := rest, responses := s.responses ++ [respondTo s a] }) ∧
    (s.busy = false → s.resetAsserted = false → s.port = .resetInput false :: rest → step s = .next { s with port := rest })

/-- The invariant of `State.Inv` holds after reset (the length of the unbuilt table is log 8). -/
def Obligations.ResetSatisfiesTheInvariant : Prop := State.reset.Inv

/-- Every step keeps the invariant: buffers in canonical form, `OUT` listing exactly `OUT_LEN <= OUT_CAP` cells (R20, R21), the
Codebook in place once `CB_READY` is 1 (R28, R29), `BUSY` and `DONE` never together (R25), the error fields and `MATCH` consistent
(R23, R26, R27, R151), the reset values held while the reset input is asserted (R33, R167). -/
def Obligations.EveryStepKeepsTheInvariant : Prop :=
  ∀ s t : State, s.Inv → step s = .next t → t.Inv

/-! ### What every command does -/

/-- R23: the layout of `STATUS`; its other bits read as 0, and host writes to it are ignored. -/
def Obligations.StatusWordHasTheLayoutOfTheRule : Prop :=
  ∀ (s : State) (v : Nat),
    s.statusWord.getLsbD 0 = s.busy ∧ s.statusWord.getLsbD 1 = s.done ∧ s.statusWord.getLsbD 2 = s.err ∧
    s.statusWord.getLsbD 3 = s.matchFlag ∧ s.statusWord.getLsbD 4 = s.cbReady ∧ s.statusWord.extractLsb' 5 3 = 0 ∧
    s.statusWord.extractLsb' 8 8 = s.errcode ∧ s.statusWord.extractLsb' 16 16 = 0 ∧ effectOf s (.write 0x04 4 v) = s

/-- R18, R19, R22: no command writes `IN`, `IN_LEN` or `CMD`, on success or on error; and the host's side is untouched. -/
def Obligations.CommandsNeverWriteTheOperand : Prop :=
  ∀ (i : Instr) (s t : State), exec i s = .next t →
    (∀ a, inCell t a = inCell s a) ∧ t.inBuf = s.inBuf ∧ t.inLen = s.inLen ∧ t.cmd = s.cmd ∧
    t.resetAsserted = s.resetAsserted ∧ t.resetCount = s.resetCount ∧ t.port = s.port ∧ t.responses = s.responses ∧ t.latency = s.latency

/-- R28, R87: the Codebook commands build the table once the operand check has passed, also when they then err, and never write a
built table; no other command touches it. -/
def Obligations.CodebookIsBuiltOnceAndKept : Prop :=
  ∀ (i : Instr) (s t : State), exec i s = .next t →
    (UsesCodebook i s → t.cbReady = true ∧ t.cb = (if s.cbReady then s.cb else cbBuilt)) ∧
    (¬ UsesCodebook i s → t.cbReady = s.cbReady ∧ t.cb = s.cb)

/-- R152, R163: the state after an error completion is the state before the command, except `STATUS`, `OUT_LEN`, the cells of
`OUT`, and `CB_READY` with `CB`. -/
def Obligations.ErrorCompletionChangesNothingElse : Prop :=
  ∀ (i : Instr) (s t : State), exec i s = .next t → t.err = true →
    t = afterError { s with cbReady := t.cbReady, cb := t.cb } t.errcode

/-- R161: which error each command can report. -/
def Obligations.CommandsReportOnlyTheErrorsOfTheMatrix : Prop :=
  ∀ (i : Instr) (s t : State), exec i s = .next t →
    t.err = false ∧ t.errcode = 0 ∨
    t.err = true ∧ t.errcode ∈
      (match i with
      | .radixConvert _ _ => [0x02, 0x03, 0x07]
      | .cbBuild | .cbEncode _ => []
      | .cbDecode => [0x03, 0x07]
      | .frRank => [0x07]
      | .dictSer => [0x04, 0x07]
      | .dictDes => [0x06, 0x07]
      | .egcEnc => [0x04, 0x05, 0x07]
      | .egcDec => [0x06, 0x07] : List (BitVec 8))

/-- R159, R160: `IN_LEN > IN_CAP` is the first check of every command that reads `IN`: nothing else happens, and no Codebook is
built. -/
def Obligations.TooLongOperandIsErrCapacityFirst : Prop :=
  ∀ (i : Instr) (s : State), s.inLen.toNat > 65536 → i ≠ .cbBuild → (∀ r, i ≠ .cbEncode r) →
    exec i s = .next (afterError s 0x07)

/-- R32: the result of a command is a function of the command and the operand alone; not of `CB_READY`, of earlier commands or of
stale cells. -/
def Obligations.ResultDependsOnCommandAndOperandOnly : Prop :=
  ∀ (i : Instr) (s s' t t' : State), s.Inv → s'.Inv → operand s' = operand s → exec i s = .next t → exec i s' = .next t' →
    result t' = result t ∧ t'.outLen = t.outLen ∧ t'.err = t.err ∧ t'.errcode = t.errcode ∧ t'.matchFlag = t.matchFlag

/-- R20: after a completion without error, `OUT[0 .. OUT_LEN)` is the result sequence: its length, and each of its cells through
the port. -/
def Obligations.ResultIsReadBackFromOut : Prop :=
  ∀ (s : State) (out : List Nat) (found : Bool), out.length ≤ 65536 →
    readRegister (afterSuccess s out found) .outLen = BitVec.ofNat 32 out.length ∧
    (∀ (i : Nat) (h : i < out.length),
      respondTo (afterSuccess s out found) (.read (0x20000 + i) 1) = .byte (BitVec.ofNat 8 out[i])) ∧
    (IsBytes out → result (afterSuccess s out found) = out)

/-! ### RadixConverter -/

/-- R12: `canon_B(N)` is the numeral of `N` with digits below `B` and no leading zero, the only one. -/
def Obligations.CanonIsTheOnlyNumeral : Prop :=
  ∀ b n : Nat, 2 ≤ b →
    val b (canon b n) = n ∧ AllDigits b (canon b n) ∧ (0 < n → (canon b n).head? ≠ some 0) ∧ (n = 0 → canon b n = [0]) ∧
    ∀ t : List Nat, AllDigits b t → t.head? ≠ some 0 → t ≠ [] → val b t = n → t = canon b n

/-- R69, R70: repeated long division, with the remainder at 0 in every sweep, gives the canonical numeral of the operand's value. -/
def Obligations.LongDivisionGivesTheCanonicalNumeral : Prop :=
  ∀ (d : List Nat) (a b : Nat), LegalBase a → LegalBase b → AllDigits a d → convert d a b = canon b (val a d)

/-- R71: every operand of value 0, the empty one too, gives the single digit 0. -/
def Obligations.ZeroConvertsToOneZeroDigit : Prop :=
  ∀ (d : List Nat) (a b : Nat), (∀ x ∈ d, x = 0) → convert d a b = [0]

/-- R76: converting there and back gives the same value, without the leading zeros. -/
def Obligations.ConvertThereAndBackKeepsTheValue : Prop :=
  ∀ (d : List Nat) (a b : Nat), LegalBase a → LegalBase b → AllDigits a d →
    val a (convert (convert d a b) b a) = val a d ∧
    convert (convert d a b) b a = (if ∀ x ∈ d, x = 0 then [0] else d.dropWhile (· == 0))

/-- R43: packed bits are right-aligned: `n` bits with a leading 1 give `ceil(n/8)` bytes, and the bit `k` places before the last is
bit `k mod 8` of the byte `k div 8` places before the last. -/
def Obligations.PackedBitsAreRightAligned : Prop :=
  ∀ bits : List Nat, AllDigits 2 bits → bits.head? = some 1 →
    (convert bits 2 256).length = (bits.length + 7) / 8 ∧
    ∀ k, k < bits.length →
      bits.reverse.getD k 0 = (convert bits 2 256).reverse.getD (k / 8) 0 / 2 ^ (k % 8) % 2

/-- R68: `RADIX.CONVERT` completes with the canonical numeral of the operand's value. -/
def Obligations.RadixConvertCompletes : Prop :=
  ∀ (s : State) (a b : Nat), InLenFits s → LegalBase a → LegalBase b → AllDigits a (operand s) →
    (canon b (val a (operand s))).length ≤ 65536 →
    exec (.radixConvert a b) s = .next (afterSuccess s (canon b (val a (operand s))) false)

/-- R68, R72 to R74, R160: the errors of `RADIX.CONVERT` on an operand that fits, in their order: a base outside 2..256, a cell that
is no digit of the source base, a result longer than `OUT_CAP`. -/
def Obligations.RadixConvertErrorsInOrder : Prop :=
  ∀ (s : State) (a b : Nat), InLenFits s →
    ¬ (LegalBase a ∧ LegalBase b ∧ AllDigits a (operand s) ∧ (canon b (val a (operand s))).length ≤ 65536) →
    exec (.radixConvert a b) s = .next (afterError s
      (if ¬ (LegalBase a ∧ LegalBase b) then 0x02 else if ¬ AllDigits a (operand s) then 0x03 else 0x07))

/-! ### Codebook -/

/-- R82 to R84: the pattern of rank `r` has the value `r + 2`, the even length `2L - 2` and exactly `L - 2` leading zeros, where `L` is
the number of binary digits of `r + 2`; up to rank 255 the length is 2..16. -/
def Obligations.PatternsHaveTheShapeOfTheRule : Prop :=
  ∀ r l : Nat, 2 ^ (l - 1) ≤ r + 2 → r + 2 < 2 ^ l →
    val 2 (cbPat r) = r + 2 ∧ (cbPat r).length = 2 * l - 2 ∧ leadingZeros (cbPat r) = l - 2 ∧ AllDigits 2 (cbPat r) ∧
    (r < 256 → 2 ≤ (cbPat r).length ∧ (cbPat r).length ≤ 16)

/-- R85: no two distinct ranks' patterns are prefixes of one another. -/
def Obligations.PatternsArePrefixFree : Prop :=
  ∀ r r' : Nat, cbPat r <+: cbPat r' → r = r'

/-- R29, R87, R94: the built table holds, for each of its 256 ranks, the length and the value of the pattern, and nothing else. -/
def Obligations.BuiltTableHoldsThePatterns : Prop :=
  cbBuilt.length = 256 ∧ ∀ r, r < 256 →
    ∃ e, cbBuilt[r]? = some e ∧ e.len.toNat = (cbPat r).length ∧ e.bits.toNat = r + 2 ∧ e.pattern = cbPat r

/-- R88: the reverse lookup over the built table is the exact inverse map from bit pattern to rank, and its closed form. -/
def Obligations.LookupIsTheExactInverse : Prop :=
  ∀ bits : List Nat, AllDigits 2 bits →
    (∀ r, cbLookup cbBuilt bits = some r ↔ r < 256 ∧ bits = cbPat r) ∧
    cbLookup cbBuilt bits =
      (if bits.length % 2 = 1 ∨ bits.length < 2 ∨ bits.length > 16 then none
      else if bits.take (bits.length / 2 - 1) ≠ rep 0 (bits.length / 2 - 1) ∨ bits[bits.length / 2 - 1]? ≠ some 1 then none
      else if val 2 bits - 2 > 255 then none
      else some (val 2 bits - 2))

/-- R91: the growing-prefix match finds the shortest prefix the lookup knows, and answers no match only when no prefix is known. -/
def Obligations.GrowingPrefixFindsTheShortestMatch : Prop :=
  ∀ (cb : List CbEntry) (bits : List Nat),
    (∀ r rest, cbNext cb bits = some (r, rest) ↔
      ∃ j, 1 ≤ j ∧ j ≤ bits.length ∧ cbLookup cb (bits.take j) = some r ∧ rest = bits.drop j ∧
        ∀ k, 1 ≤ k → k < j → cbLookup cb (bits.take k) = none) ∧
    (cbNext cb bits = none ↔ ∀ j, 1 ≤ j → j ≤ bits.length → cbLookup cb (bits.take j) = none)

/-- R86: `CB.BUILD` completes with no result and the Codebook built; `IN` is not read. -/
def Obligations.CbBuildCompletes : Prop :=
  ∀ s : State, s.Inv → exec .cbBuild s = .next (afterSuccess (withCodebook s) [] false)

/-- R89: `CB.ENCODE` completes with the pattern of its rank, one bit per cell, the Codebook built first. -/
def Obligations.CbEncodeCompletes : Prop :=
  ∀ (s : State) (r : Nat), s.Inv → r < 256 →
    exec (.cbEncode r) s = .next (afterSuccess (withCodebook s) (cbPat r) false)

/-- R90: `CB.DECODE` of an operand that fits, the Codebook built first: a rank's pattern gives that rank and `MATCH = 1`; any other
bit sequence is not-found, which is no error; a cell that is not a bit ends in `ERR_DIGIT`. An operand that does not fit ends in
`ERR_CAPACITY`, no Codebook built. -/
def Obligations.CbDecodeCompletes : Prop :=
  ∀ s : State, s.Inv →
    (InLenFits s →
      (∀ r, r < 256 → operand s = cbPat r → exec .cbDecode s = .next (afterSuccess (withCodebook s) [r] true)) ∧
      (AllDigits 2 (operand s) → (∀ r, r < 256 → operand s ≠ cbPat r) →
        exec .cbDecode s = .next (afterSuccess (withCodebook s) [] false)) ∧
      (¬ AllDigits 2 (operand s) → exec .cbDecode s = .next (afterError (withCodebook s) 0x03))) ∧
    (¬ InLenFits s → exec .cbDecode s = .next (afterError s 0x07))

/-! ### FrequencyRanker -/

/-- R97 to R99: the symbol list holds exactly the values that occur, each once; `u` stands before `v` exactly when it occurs more
often, or as often and is smaller; and the rank of a present value is its index. -/
def Obligations.SymbolListIsOrderedByCountThenValue : Prop :=
  ∀ s : List Nat, IsBytes s →
    (∀ v, v ∈ rankOrder s ↔ v ∈ s) ∧ (rankOrder s).Nodup ∧
    (rankOrder s).Pairwise (fun u v => s.count v < s.count u ∨ (s.count u = s.count v ∧ u < v)) ∧
    ∀ v ∈ s, (rankOrder s)[rankOf (rankOrder s) v]? = some v

/-- R101: the symbol list depends only on the multiset of the input's bytes. -/
def Obligations.SymbolListIgnoresTheInputsOrder : Prop :=
  ∀ s s' : List Nat, s.Perm s' → rankOrder s = rankOrder s'

/-- R96, R100: `FR.RANK` completes with the symbol list of its operand, the empty one included; the Codebook is not touched; an
operand that does not fit ends in `ERR_CAPACITY`. -/
def Obligations.FrRankCompletes : Prop :=
  ∀ s : State,
    (InLenFits s →
      exec .frRank s = .next (afterSuccess s (rankOrder (operand s)) false) ∧
      (s.inLen = 0 → exec .frRank s = .next (afterSuccess s [] false)) ∧ (rankOrder (operand s)).length ≤ 256) ∧
    (¬ InLenFits s → exec .frRank s = .next (afterError s 0x07))

/-! ### DictionaryCodec -/

/-- R106, R107: the extended sequence is the minimum `m` and then every difference modulo 256 less `m`; adding `m` back never wraps,
and some element is 0. -/
def Obligations.ShiftedDeltasAreTheRules : Prop :=
  ∀ s : List Nat, IsBytes s → s ≠ [] →
    ∃ m x, minShift (deltas 0 s) = m :: x ∧ x.length = s.length ∧ 0 ∈ x ∧
      ∀ i, i < s.length → x.getD i 0 + m < 256 ∧
        ((x.getD i 0 + m : Nat) : Int) = ((s.getD i 0 : Int) - (if i = 0 then 0 else (s.getD (i - 1) 0 : Int))) % 256

/-- R115: the groups of a ternary numeral that starts with a delimiter: one for each delimiter, none holding one, and together with
their delimiters they are the numeral. -/
def Obligations.EveryDelimiterOpensOneGroup : Prop :=
  ∀ t : List Nat, AllDigits 3 t → t.head? = some 2 →
    GroupsOf t (splitGroups t).2 ∧ (splitGroups t).2.length = t.count 2

/-- R120: the dictionary round trip, for every list of bytes that is not empty, of any length and with or without repeats; and two
payloads of one list, so the converse does not hold. -/
def Obligations.DictionaryRoundTrip : Prop :=
  (∀ s : List Nat, IsBytes s → s ≠ [] → dictDeserialize (dictSerialize s) = .ok s) ∧
  dictDeserialize [0x08] = .ok [0x00] ∧ dictDeserialize [0x3C] = .ok [0x00]

/-- R105, R109: `DICT.SER` completes with the packed ternary rendering of its operand; more than 255 bytes are a legal result. -/
def Obligations.DictSerCompletes : Prop :=
  ∀ s : State, InLenFits s → s.inLen ≠ 0 → (dictPayloadOf (operand s)).length ≤ 65536 →
    exec .dictSer s = .next (afterSuccess s (dictPayloadOf (operand s)) false)

/-- R105, R111, R159: the errors of `DICT.SER` on an operand that fits: the empty list, then a result longer than `OUT_CAP`. -/
def Obligations.DictSerErrorsInOrder : Prop :=
  ∀ s : State, InLenFits s → s.inLen = 0 ∨ (dictPayloadOf (operand s)).length > 65536 →
    exec .dictSer s = .next (afterError s (if s.inLen = 0 then 0x04 else 0x07))

/-- R113 to R117, R159: `DICT.DES` completes with the symbol list its payload holds, and ends in `ERR_CAPACITY` when that list is
longer than `OUT_CAP`. -/
def Obligations.DictDesCompletes : Prop :=
  ∀ (s : State) (sym : List Nat), InLenFits s → PayloadHolds (operand s) sym →
    (sym.length ≤ 65536 → exec .dictDes s = .next (afterSuccess s sym false)) ∧
    (sym.length > 65536 → exec .dictDes s = .next (afterError s 0x07))

/-- R118: `DICT.DES` ends in `ERR_CORRUPT` in exactly two cases: the ternary numeral does not start with the delimiter, or a group's
value is above 255. -/
def Obligations.DictDesIsCorruptInTwoCases : Prop :=
  ∀ s : State, InLenFits s →
    (exec .dictDes s = .next (afterError s 0x06) ↔
      (ternaryOf (operand s)).head? ≠ some 2 ∨
      ∃ groups, GroupsOf (ternaryOf (operand s)) groups ∧ ∃ g ∈ groups, val 2 g > 255)

/-! ### AdaptiveCodec -/

/-- R126 to R135: `EGC.ENC` completes with the frame of its operand, the Codebook built first. -/
def Obligations.EgcEncCompletes : Prop :=
  ∀ s : State, s.Inv → InLenFits s → s.inLen ≠ 0 → (dictPayloadOf (rankOrder (operand s))).length ≤ 255 →
    (frameOf (operand s)).length ≤ 65536 →
    exec .egcEnc s = .next (afterSuccess (withCodebook s) (frameOf (operand s)) false)

/-- R127, R128, R133, R137, R160: the errors of `EGC.ENC` on an operand that fits, in their order, all with the Codebook built: the
empty input, a dictionary of more than 255 bytes, a frame longer than `OUT_CAP`. -/
def Obligations.EgcEncErrorsInOrder : Prop :=
  ∀ s : State, s.Inv → InLenFits s →
    ¬ (s.inLen ≠ 0 ∧ (dictPayloadOf (rankOrder (operand s))).length ≤ 255 ∧ (frameOf (operand s)).length ≤ 65536) →
    exec .egcEnc s = .next (afterError (withCodebook s)
      (if s.inLen = 0 then 0x04 else if (dictPayloadOf (rankOrder (operand s))).length > 255 then 0x05 else 0x07))

/-- R130, R136: the shape of the frame of an input: its length, from the bit sequence and the dictionary payload of that input; a
length byte of 1..255; the number of leading zeros of the bit sequence, at most seven; payloads that do not start with 0; and at
least four bytes. -/
def Obligations.EncodedFrameHasItsShape : Prop :=
  ∀ x f : List Nat, IsBytes x → egcEncode cbBuilt x = .ok f →
    ∃ dictLen lz, dictLen = (dictPayloadOf (rankOrder x)).length ∧ lz = leadingZeros (bitsOf x) ∧
      f[0]? = some (256 - dictLen) ∧ f[1]? = some lz ∧ lz ≤ 7 ∧ 1 ≤ dictLen ∧ dictLen ≤ 255 ∧
      2 * x.length ≤ (bitsOf x).length ∧ (bitsOf x).length ≤ 16 * x.length ∧
      f.length = 2 + ((bitsOf x).length - lz + 7) / 8 + dictLen ∧ 4 ≤ f.length ∧
      f[2]? ≠ some 0 ∧ f[f.length - dictLen]? ≠ some 0 ∧ IsBytes f

/-- R138 to R145, R159: `EGC.DEC` completes with the bytes its frame holds, and ends in `ERR_CAPACITY` when they are more than
`OUT_CAP`, the Codebook built first. -/
def Obligations.EgcDecCompletes : Prop :=
  ∀ (s : State) (out : List Nat), s.Inv → InLenFits s → FrameHolds (operand s) out →
    (out.length ≤ 65536 → exec .egcDec s = .next (afterSuccess (withCodebook s) out false)) ∧
    (out.length > 65536 → exec .egcDec s = .next (afterError (withCodebook s) 0x07))

/-- R138, R140 to R144, R158: `EGC.DEC` of any other frame ends in `ERR_CORRUPT`, the Codebook built first. -/
def Obligations.EgcDecOfAnyOtherFrameIsCorrupt : Prop :=
  ∀ s : State, s.Inv → InLenFits s → (¬ ∃ out, FrameHolds (operand s) out) →
    exec .egcDec s = .next (afterError (withCodebook s) 0x06)

/-- R146: whenever the encoder returns a frame, the decoder gives back the input. -/
def Obligations.FrameRoundTrip : Prop :=
  ∀ x f : List Nat, IsBytes x → egcEncode cbBuilt x = .ok f → egcDecode cbBuilt f = .ok x

/-- R146, R176: the same between two commands: a state whose operand is the result of an `EGC.ENC` without error decodes it to the
operand of that command. -/
def Obligations.DecodeAfterEncodeGivesTheInput : Prop :=
  ∀ s t u : State, s.Inv → u.Inv → exec .egcEnc s = .next t → t.err = false → operand u = result t →
    ∃ v, exec .egcDec u = .next v ∧ v.err = false ∧ v.done = true ∧ result v = operand s

/-! ### The host's port -/

/-- R37: what each register offset reads as. -/
def Obligations.RegisterOffsetsReadTheirRegisters : Prop :=
  ∀ s : State,
    respondTo s (.read 0x00 4) = .word s.cmd ∧ respondTo s (.read 0x04 4) = .word s.statusWord ∧
    respondTo s (.read 0x08 4) = .word s.inLen ∧ respondTo s (.read 0x0C 4) = .word s.outLen ∧
    respondTo s (.read 0x10 4) = .word 0x00010000 ∧ respondTo s (.read 0x14 4) = .word 0x00010000 ∧
    respondTo s (.read 0x18 4) = .word 0 ∧ respondTo s (.read 0x1C 4) = .word 0

/-- R39: a byte written through the IN window, while the reset input is not asserted, reads back; every other cell of `IN`, and everything else, is as before. -/
def Obligations.InWindowWriteStoresOneCell : Prop :=
  ∀ (s : State) (i v : Nat) (rest : List HostEvent), s.busy = false → s.resetAsserted = false → i < 65536 →
    s.port = .access (.write (0x10000 + i) 1 v) :: rest →
    ∃ t, step s = .next t ∧ respondTo t (.read (0x10000 + i) 1) = .byte (BitVec.ofNat 8 v) ∧
      (∀ j, j ≠ i → inCell t j = inCell s j) ∧
      t = { s with inBuf := t.inBuf, port := rest, responses := s.responses ++ [.ack] }

/-- R19: `IN_LEN`, written while the reset input is not asserted, takes any 32-bit value, also one above `IN_CAP`; nothing else
changes. -/
def Obligations.InLenWriteStoresAnyValue : Prop :=
  ∀ (s : State) (v : Word) (rest : List HostEvent), s.busy = false → s.resetAsserted = false →
    s.port = .access (.write 0x08 4 v.toNat) :: rest →
    step s = .next { s with inLen := v, port := rest, responses := s.responses ++ [.ack] }

/-- R40: an access that is no aligned word of the register block and no byte of a window gets a bus error response and changes no
state of the block. -/
def Obligations.WrongAccessGetsABusError : Prop :=
  ∀ (s : State) (off width value : Nat) (rest : List HostEvent), s.busy = false → ¬ LegalAccess off width →
    (s.port = .access (.read off width) :: rest ∨ s.port = .access (.write off width value) :: rest) →
    step s = .next { s with port := rest, responses := s.responses ++ [.busError] }

/-- R39, R45, R46, R47: a step that serves a read while no command runs changes no state of the block and answers with what the
offset reads as; a write of a read-only or reserved register or of the OUT window is ignored without error (that the OUT window's
write is acknowledged is the model's choice, log 17); and a write of anything but `CMD` does no more than store in `IN` or
`IN_LEN`. -/
def Obligations.ReadsAndIgnoredWritesChangeNothing : Prop :=
  ∀ (s : State) (off width value : Nat) (rest : List HostEvent),
    effectOf s (.read off width) = s ∧
    (s.busy = false → s.port = .access (.read off width) :: rest →
      step s = .next { s with port := rest, responses := s.responses ++ [respondTo s (.read off width)] }) ∧
    (LegalAccess off width → off ∈ [0x04, 0x0C, 0x10, 0x14, 0x18, 0x1C] ∨ 0x20000 ≤ off →
      effectOf s (.write off width value) = s ∧
      (s.busy = false → s.port = .access (.write off width value) :: rest →
        step s = .next { s with port := rest, responses := s.responses ++ [.ack] })) ∧
    (off ≠ 0x00 → effectOf s (.write off width value) =
      { s with inBuf := (effectOf s (.write off width value)).inBuf, inLen := (effectOf s (.write off width value)).inLen })

/-- R63, R171: after the accesses of `LOAD`, while the reset input is not asserted, the operand is the loaded sequence, whatever `IN` and `IN_LEN` held. -/
def Obligations.LoadMakesTheOperand : Prop :=
  ∀ (s : State) (bytes : List Byte) (rest : List HostEvent), s.busy = false → s.resetAsserted = false → bytes.length ≤ 65536 →
    s.port = hostLoad bytes ++ rest →
    ∃ t, Host.Core.run Sys2Proof.core (bytes.length + 1) s = .next t ∧ operand t = bytes.map (·.toNat) ∧
      t.port = rest ∧ t.busy = false ∧ t.outBuf = s.outBuf ∧ t.cb = s.cb ∧ t.statusWord = s.statusWord
end

