-- ==== Sys2Proof/Laws/Numerals.lean ====
section
/-! SUPPORT. Digit sequences: `val` over `::` and `++`, its bound, one sweep of the long division, the digits `pushDigits` produces,
and the fixed-length binary rendering. -/

namespace Sys2Proof.Machine

theorem val_foldl (base : Nat) (s : List Nat) (acc : Nat) :
    s.foldl (fun acc d => acc * base + d) acc = acc * base ^ s.length + val base s := by
  induction s generalizing acc with
  | nil => simp [val]
  | cons d ds ih =>
    simp only [List.foldl_cons, List.length_cons, val]
    rw [ih, ih]; ring

@[simp] theorem val_nil (base : Nat) : val base [] = 0 := rfl

theorem val_cons (base d : Nat) (s : List Nat) : val base (d :: s) = d * base ^ s.length + val base s := by
  simp only [val, List.foldl_cons, zero_mul, zero_add]; rw [val_foldl]; rfl

theorem val_append (base : Nat) (s t : List Nat) : val base (s ++ t) = val base s * base ^ t.length + val base t := by
  simp only [val, List.foldl_append]; rw [val_foldl]; rfl

/-- Leading zeros do not change the value. -/
theorem val_rep_append (base n : Nat) (s : List Nat) : val base (rep 0 n ++ s) = val base s := by
  induction n with
  | zero => rfl
  | succ n ih => rw [rep, List.replicate_succ, List.cons_append, val_cons, ← rep, ih]; simp

/-- A numeral of `n` digits is below `base ^ n`. -/
theorem val_lt (base : Nat) (s : List Nat) (h : AllDigits base s) : val base s < base ^ s.length := by
  induction s with
  | nil => simp
  | cons d ds ih =>
    rw [val_cons, List.length_cons, pow_succ]
    have h1 := ih (fun x hx => h x (by simp [hx]))
    have h2 : d < base := h d (by simp)
    calc d * base ^ ds.length + val base ds < d * base ^ ds.length + base ^ ds.length := by omega
      _ = (d + 1) * base ^ ds.length := by ring
      _ ≤ base * base ^ ds.length := Nat.mul_le_mul_right _ h2
      _ = _ := by ring

/-- A numeral whose first digit is not 0 is at least the power of its other digits' number. -/
theorem le_val_cons (base d : Nat) (s : List Nat) (hd : d ≠ 0) : base ^ s.length ≤ val base (d :: s) := by
  rw [val_cons]
  have := Nat.mul_le_mul_right (base ^ s.length) (Nat.one_le_iff_ne_zero.mpr hd)
  omega

theorem val_eq_zero_iff (base : Nat) (hb : 0 < base) (s : List Nat) : val base s = 0 ↔ ∀ x ∈ s, x = 0 := by
  induction s with
  | nil => simp
  | cons d ds ih =>
    rw [val_cons]
    simp only [Nat.add_eq_zero_iff, mul_eq_zero, List.mem_cons, forall_eq_or_imp, ih]
    have : base ^ ds.length ≠ 0 := by positivity
    tauto

/-! ### Long division -/

@[simp] theorem sweep_length (source target r : Nat) (w : List Nat) : (sweep source target r w).1.length = w.length := by
  induction w generalizing r with
  | nil => rfl
  | cons d ds ih => simp [sweep, ih]

/-- A sweep divides: quotient times target plus final remainder is the incoming remainder in front of the sequence. -/
theorem sweep_spec (source target : Nat) (ht : 0 < target) (r : Nat) (w : List Nat) :
    val source (sweep source target r w).1 * target + (sweep source target r w).2 = r * source ^ w.length + val source w ∧
    (r < target → (sweep source target r w).2 < target) := by
  induction w generalizing r with
  | nil => simp [sweep]
  | cons d ds ih =>
    simp only [sweep]
    obtain ⟨h1, h2⟩ := ih ((r * source + d) % target)
    refine ⟨?_, fun _ => h2 (Nat.mod_lt _ ht)⟩
    rw [val_cons, sweep_length, add_mul, add_assoc, h1, val_cons, List.length_cons, pow_succ]
    have := Nat.div_add_mod (r * source + d) target
    set v := r * source + d
    calc v / target * source ^ ds.length * target + (v % target * source ^ ds.length + val source ds)
        = (target * (v / target) + v % target) * source ^ ds.length + val source ds := by ring
      _ = v * source ^ ds.length + val source ds := by rw [this]
      _ = _ := by simp only [v]; ring

/-- A sweep that starts below the target leaves digits of the source base. -/
theorem sweep_digits (source target r : Nat) (w : List Nat) (hr : r < target) (h : AllDigits source w) :
    AllDigits source (sweep source target r w).1 := by
  induction w generalizing r with
  | nil => exact h
  | cons d ds ih =>
    have ht : 0 < target := by omega
    intro x hx
    simp only [sweep, List.mem_cons] at hx
    rcases hx with rfl | hx
    · have hd : d < source := h d (by simp)
      rw [Nat.div_lt_iff_lt_mul ht]
      calc r * source + d < r * source + source := by omega
        _ = (r + 1) * source := by ring
        _ ≤ target * source := Nat.mul_le_mul_right _ hr
        _ = source * target := by ring
    · exact ih _ (Nat.mod_lt _ ht) (fun y hy => h y (by simp [hy])) x hx

/-! ### The digits of a number -/

/-- Fuel beyond the number of digits changes nothing. -/
theorem pushDigits_enough (base : Nat) (hb : 2 ≤ base) (f g n : Nat) (acc : List Nat) (hf : n < base ^ f) (hg : n < base ^ g) :
    pushDigits base f n acc = pushDigits base g n acc := by
  induction f generalizing g n acc with
  | zero =>
    have : n = 0 := by simpa using hf
    subst this; cases g <;> simp [pushDigits]
  | succ f ih =>
    cases g with
    | zero =>
      have : n = 0 := by simpa using hg
      subst this; simp [pushDigits]
    | succ g =>
      simp only [pushDigits]; split
      · rfl
      · apply ih
        · rw [Nat.div_lt_iff_lt_mul (by omega)]; rwa [pow_succ] at hf
        · rw [Nat.div_lt_iff_lt_mul (by omega)]; rwa [pow_succ] at hg

theorem pushDigits_val (base : Nat) (hb : 2 ≤ base) (f n : Nat) (acc : List Nat) (hn : n < base ^ f) :
    val base (pushDigits base f n acc) = n * base ^ acc.length + val base acc := by
  induction f generalizing n acc with
  | zero =>
    have : n = 0 := by simpa using hn
    subst this; simp [pushDigits]
  | succ f ih =>
    simp only [pushDigits]; split
    · next h => simp [h]
    · rw [ih, val_cons, List.length_cons, pow_succ]
      · have := Nat.div_add_mod n base
        calc n / base * (base ^ acc.length * base) + (n % base * base ^ acc.length + val base acc)
            = (base * (n / base) + n % base) * base ^ acc.length + val base acc := by ring
          _ = _ := by rw [this]
      · rw [Nat.div_lt_iff_lt_mul (by omega)]; rwa [pow_succ] at hn

theorem pushDigits_digits (base : Nat) (hb : 2 ≤ base) (f n : Nat) (acc : List Nat) (h : AllDigits base acc) :
    AllDigits base (pushDigits base f n acc) := by
  induction f generalizing n acc with
  | zero => exact h
  | succ f ih =>
    simp only [pushDigits]; split
    · exact h
    · apply ih
      intro x hx
      rcases List.mem_cons.mp hx with rfl | hx
      · exact Nat.mod_lt _ (by omega)
      · exact h x hx

/-- The fuel `canon` gives is enough for every base of at least 2. -/
theorem lt_pow_log2 (base n : Nat) (hb : 2 ≤ base) : n < base ^ (Nat.log2 n + 1) := by
  calc n < 2 ^ (Nat.log2 n + 1) := Nat.lt_log2_self
    _ ≤ _ := Nat.pow_le_pow_left hb _

/-- Numbers of at least `base ^ k` have more than `k` digits. -/
theorem lt_length_canon (base : Nat) (hb : 2 ≤ base) (k n : Nat) (h : base ^ k ≤ n) : k < (canon base n).length := by
  have hn : n ≠ 0 := by
    have : 0 < base ^ k := by positivity
    omega
  have hv := pushDigits_val base hb _ n [] (lt_pow_log2 base n hb)
  have hd := val_lt base _ (pushDigits_digits base hb (Nat.log2 n + 1) n [] (fun _ h => nomatch h))
  rw [hv] at hd
  simp only [List.length_nil, pow_zero, mul_one, val_nil, add_zero] at hd
  rw [canon, if_neg hn]
  exact (Nat.pow_lt_pow_iff_right (by omega : 1 < base)).1 (lt_of_le_of_lt h hd)

/-! ### The fixed-length binary rendering -/

@[simp] theorem binFixed_length (l v : Nat) : (binFixed l v).length = l := by
  induction l with
  | zero => rfl
  | succ l ih => simp [binFixed, ih]

theorem binFixed_digits (l v : Nat) : AllDigits 2 (binFixed l v) := by
  induction l with
  | zero => exact fun _ h => nomatch h
  | succ l ih =>
    intro x hx
    rcases List.mem_cons.mp hx with rfl | hx
    · omega
    · exact ih x hx

theorem binFixed_val (l v : Nat) : val 2 (binFixed l v) = v % 2 ^ l := by
  induction l with
  | zero => simp [binFixed, Nat.mod_one]
  | succ l ih =>
    rw [binFixed, val_cons, binFixed_length, ih, Nat.mod_pow_succ]; ring

/-- The pattern an entry of any table holds has at most 31 bits. -/
theorem cbPattern_length_lt (cb : List CbEntry) (r : Nat) : (cbPattern cb r).length < 32 := by
  unfold cbPattern
  cases cb[r]? with
  | none => simp
  | some e => simp only [Option.map_some, Option.getD_some, CbEntry.pattern, binFixed_length]; exact e.len.isLt

end Sys2Proof.Machine
end

