-- ==== Sys2Proof/Laws/Memory.lean ====
section
/-! SUPPORT. The buffers: a read after a write, and that every operation keeps the canonical form. -/

namespace Sys2Proof.Machine

@[simp] theorem Memory.read_nil (i : Nat) : Memory.read [] i = none := rfl

theorem Memory.read_cons (c : Host.Cell) (m : Memory) (i : Nat) :
    Memory.read (c :: m) i = if c.1 = i then some c.2 else Memory.read m i := by
  unfold Memory.read
  by_cases h : c.1 = i <;> simp [h]

/-- A write reads back. -/
@[simp] theorem Memory.read_write_same (m : Memory) (i : Nat) (v : Byte) : (m.write i v).read i = some v := by
  induction m with
  | nil => simp [Memory.write, Memory.read_cons]
  | cons c cs ih =>
    simp only [Memory.write]
    split
    · simp [Memory.read_cons]
    · split
      · simp [Memory.read_cons]
      · next h => simp [Memory.read_cons, ih, Ne.symm h]

/-- A write leaves every other cell alone. -/
theorem Memory.read_write_other (m : Memory) (i j : Nat) (v : Byte) (h : j ≠ i) : (m.write i v).read j = m.read j := by
  induction m with
  | nil => simp [Memory.write, Memory.read_cons, Ne.symm h]
  | cons c cs ih =>
    simp only [Memory.write]
    split
    · simp [Memory.read_cons, Ne.symm h]
    · split
      · next hc => simp [Memory.read_cons, ← hc, Ne.symm h]
      · simp [Memory.read_cons, ih]

/-- Canonical form, as a statement about all pairs. -/
theorem Memory.wf_iff_pairwise (m : Memory) : m.wf = true ↔ m.Pairwise fun c d => c.1 < d.1 := by
  induction m with
  | nil => simp [Memory.wf]
  | cons c cs ih =>
    cases cs with
    | nil => simp [Memory.wf]
    | cons d ds =>
      rw [Memory.wf, Bool.and_eq_true, ih, decide_eq_true_eq]
      constructor
      · rintro ⟨hcd, hp⟩
        refine List.pairwise_cons.mpr ⟨fun x hx => ?_, hp⟩
        rcases List.mem_cons.mp hx with rfl | hx
        · exact hcd
        · exact hcd.trans (List.rel_of_pairwise_cons hp hx)
      · intro h
        exact ⟨List.rel_of_pairwise_cons h (by simp), (List.pairwise_cons.mp h).2⟩

theorem Memory.mem_write {m : Memory} {i : Nat} {v : Byte} {c : Host.Cell} (h : c ∈ m.write i v) :
    c = (i, v) ∨ c ∈ m := by
  induction m with
  | nil => simpa [Memory.write] using h
  | cons d ds ih =>
    simp only [Memory.write] at h
    split at h
    · simpa using h
    · split at h
      · rcases List.mem_cons.mp h with h | h <;> simp [h]
      · rcases List.mem_cons.mp h with h | h
        · simp [h]
        · rcases ih h with h | h <;> simp [h]

/-- A write keeps the canonical form. -/
theorem Memory.write_wf (m : Memory) (i : Nat) (v : Byte) (h : m.wf = true) : (m.write i v).wf = true := by
  rw [Memory.wf_iff_pairwise] at h ⊢
  induction m with
  | nil => simp [Memory.write]
  | cons c cs ih =>
    obtain ⟨hc, hp⟩ := List.pairwise_cons.mp h
    simp only [Memory.write]
    split
    · next hi =>
      refine List.pairwise_cons.mpr ⟨fun d hd => ?_, h⟩
      rcases List.mem_cons.mp hd with rfl | hd
      · exact hi
      · exact hi.trans (hc d hd)
    · split
      · next hi => exact List.pairwise_cons.mpr ⟨fun d hd => hi ▸ hc d hd, hp⟩
      · next h1 h2 =>
        refine List.pairwise_cons.mpr ⟨fun d hd => ?_, ih hp⟩
        rcases Memory.mem_write hd with rfl | hd
        · simp only; omega
        · exact hc d hd

/-- A write of an existing cell lists only existing cells. -/
theorem Memory.write_below (cap : Nat) (m : Memory) (i : Nat) (v : Byte) (hi : i < cap) (h : m.below cap = true) :
    (m.write i v).below cap = true := by
  simp only [Memory.below, List.all_eq_true, decide_eq_true_eq] at h ⊢
  intro c hc
  rcases Memory.mem_write hc with rfl | hc
  · exact hi
  · exact h c hc

theorem Memory.mem_ofSeqAt {s : List Nat} {i : Nat} {c : Host.Cell} (h : c ∈ Memory.ofSeqAt i s) :
    i ≤ c.1 ∧ c.1 < i + s.length := by
  induction s generalizing i with
  | nil => simp [Memory.ofSeqAt] at h
  | cons v vs ih =>
    rcases List.mem_cons.mp h with rfl | h
    · simp
    · have := ih h
      simp only [List.length_cons]; omega

/-- A stored sequence is in canonical form. -/
theorem Memory.ofSeq_wf (s : List Nat) : (Memory.ofSeq s).wf = true := by
  rw [Memory.wf_iff_pairwise, Memory.ofSeq]
  generalize 0 = i
  induction s generalizing i with
  | nil => simp [Memory.ofSeqAt]
  | cons v vs ih => exact List.pairwise_cons.mpr ⟨fun c hc => (Memory.mem_ofSeqAt hc).1, ih (i + 1)⟩

/-- A stored sequence lists only its own cells. -/
theorem Memory.ofSeq_below (s : List Nat) (cap : Nat) (h : s.length ≤ cap) : (Memory.ofSeq s).below cap = true := by
  simp only [Memory.below, List.all_eq_true, decide_eq_true_eq]
  intro c hc
  have := Memory.mem_ofSeqAt hc
  omega

theorem Memory.read_ofSeqAt (s : List Nat) (i j : Nat) :
    (Memory.ofSeqAt i s).read (i + j) = (s[j]?).map (BitVec.ofNat 8) := by
  induction s generalizing i j with
  | nil => simp [Memory.ofSeqAt]
  | cons v vs ih =>
    rw [Memory.ofSeqAt, Memory.read_cons]
    cases j with
    | zero => simp
    | succ j =>
      rw [if_neg (by simp only; omega), show i + (j + 1) = i + 1 + j by omega, ih]
      simp

/-- A stored sequence reads back, element by element. -/
theorem Memory.read_ofSeq (s : List Nat) (j : Nat) : (Memory.ofSeq s).read j = (s[j]?).map (BitVec.ofNat 8) := by
  simpa [Memory.ofSeq] using Memory.read_ofSeqAt s 0 j

theorem operand_length (s : State) : (operand s).length = s.inLen.toNat := by simp [operand]

/-- The operand is made of bytes. -/
theorem operand_lt (s : State) : ∀ x ∈ operand s, x < 256 := by
  simp only [operand, List.mem_map]
  rintro _ ⟨i, _, rfl⟩
  exact (inCell s i).isLt

/-- A sequence of bytes stored in `IN`, with its length in `IN_LEN`, is the operand. -/
theorem operand_ofSeq (s : State) (l : List Nat) (hb : s.inBuf = Memory.ofSeq l) (hl : s.inLen = BitVec.ofNat 32 l.length)
    (hlt : l.length < 2 ^ 32) (h : ∀ x ∈ l, x < 256) : operand s = l := by
  have hn : s.inLen.toNat = l.length := by rw [hl, BitVec.toNat_ofNat, Nat.mod_eq_of_lt hlt]
  apply List.ext_getElem
  · rw [operand_length, hn]
  · intro i h1 h2
    simp only [operand, List.getElem_map, List.getElem_range, inCell, hb, Memory.read_ofSeq, List.getElem?_eq_getElem h2,
      Option.map_some, Option.getD_some, BitVec.toNat_ofNat]
    exact Nat.mod_eq_of_lt (h _ (List.getElem_mem h2))

/-- Two states with the same `IN` and `IN_LEN` have the same operand. -/
theorem operand_congr {s t : State} (hb : t.inBuf = s.inBuf) (hr : t.resetCount = s.resetCount) (hl : t.inLen = s.inLen) :
    operand t = operand s := by
  simp only [operand, inCell, hb, hr, hl]

end Sys2Proof.Machine
end

