-- ==== Sys2Proof/Laws/State.lean ====
section
/-! SUPPORT. One lemma per field per state update: what the update leaves in the field. -/

namespace Sys2Proof.Machine

/-! ### startFlags -/

@[simp] theorem startFlags_cmd (s : State) : (startFlags s).cmd = s.cmd := rfl
@[simp] theorem startFlags_busy (s : State) : (startFlags s).busy = true := rfl
@[simp] theorem startFlags_done (s : State) : (startFlags s).done = false := rfl
@[simp] theorem startFlags_err (s : State) : (startFlags s).err = false := rfl
@[simp] theorem startFlags_matchFlag (s : State) : (startFlags s).matchFlag = false := rfl
@[simp] theorem startFlags_cbReady (s : State) : (startFlags s).cbReady = s.cbReady := rfl
@[simp] theorem startFlags_errcode (s : State) : (startFlags s).errcode = 0 := rfl
@[simp] theorem startFlags_inLen (s : State) : (startFlags s).inLen = s.inLen := rfl
@[simp] theorem startFlags_outLen (s : State) : (startFlags s).outLen = s.outLen := rfl
@[simp] theorem startFlags_inBuf (s : State) : (startFlags s).inBuf = s.inBuf := rfl
@[simp] theorem startFlags_outBuf (s : State) : (startFlags s).outBuf = s.outBuf := rfl
@[simp] theorem startFlags_cb (s : State) : (startFlags s).cb = s.cb := rfl
@[simp] theorem startFlags_resetAsserted (s : State) : (startFlags s).resetAsserted = s.resetAsserted := rfl
@[simp] theorem startFlags_resetCount (s : State) : (startFlags s).resetCount = s.resetCount := rfl
@[simp] theorem startFlags_completionCount (s : State) : (startFlags s).completionCount = s.completionCount := rfl
@[simp] theorem startFlags_port (s : State) : (startFlags s).port = s.port := rfl
@[simp] theorem startFlags_responses (s : State) : (startFlags s).responses = s.responses := rfl
@[simp] theorem startFlags_latency (s : State) : (startFlags s).latency = s.latency := rfl
@[simp] theorem startFlags_busyFor (s : State) : (startFlags s).busyFor = s.busyFor := rfl

/-! ### endFlags -/

@[simp] theorem endFlags_cmd (e : Option ErrCause) (f : Bool) (s : State) : (endFlags e f s).cmd = s.cmd := rfl
@[simp] theorem endFlags_busy (e : Option ErrCause) (f : Bool) (s : State) : (endFlags e f s).busy = false := rfl
@[simp] theorem endFlags_done (e : Option ErrCause) (f : Bool) (s : State) : (endFlags e f s).done = true := rfl
@[simp] theorem endFlags_err (e : Option ErrCause) (f : Bool) (s : State) : (endFlags e f s).err = e.isSome := rfl
@[simp] theorem endFlags_matchFlag (e : Option ErrCause) (f : Bool) (s : State) : (endFlags e f s).matchFlag = f := rfl
@[simp] theorem endFlags_cbReady (e : Option ErrCause) (f : Bool) (s : State) : (endFlags e f s).cbReady = s.cbReady := rfl
@[simp] theorem endFlags_errcode (e : Option ErrCause) (f : Bool) (s : State) : (endFlags e f s).errcode = (e.map ErrCause.code).getD 0 := rfl
@[simp] theorem endFlags_inLen (e : Option ErrCause) (f : Bool) (s : State) : (endFlags e f s).inLen = s.inLen := rfl
@[simp] theorem endFlags_outLen (e : Option ErrCause) (f : Bool) (s : State) : (endFlags e f s).outLen = s.outLen := rfl
@[simp] theorem endFlags_inBuf (e : Option ErrCause) (f : Bool) (s : State) : (endFlags e f s).inBuf = s.inBuf := rfl
@[simp] theorem endFlags_outBuf (e : Option ErrCause) (f : Bool) (s : State) : (endFlags e f s).outBuf = s.outBuf := rfl
@[simp] theorem endFlags_cb (e : Option ErrCause) (f : Bool) (s : State) : (endFlags e f s).cb = s.cb := rfl
@[simp] theorem endFlags_resetAsserted (e : Option ErrCause) (f : Bool) (s : State) : (endFlags e f s).resetAsserted = s.resetAsserted := rfl
@[simp] theorem endFlags_resetCount (e : Option ErrCause) (f : Bool) (s : State) : (endFlags e f s).resetCount = s.resetCount := rfl
@[simp] theorem endFlags_completionCount (e : Option ErrCause) (f : Bool) (s : State) : (endFlags e f s).completionCount = s.completionCount := rfl
@[simp] theorem endFlags_port (e : Option ErrCause) (f : Bool) (s : State) : (endFlags e f s).port = s.port := rfl
@[simp] theorem endFlags_responses (e : Option ErrCause) (f : Bool) (s : State) : (endFlags e f s).responses = s.responses := rfl
@[simp] theorem endFlags_latency (e : Option ErrCause) (f : Bool) (s : State) : (endFlags e f s).latency = s.latency := rfl
@[simp] theorem endFlags_busyFor (e : Option ErrCause) (f : Bool) (s : State) : (endFlags e f s).busyFor = s.busyFor := rfl

/-! ### beginCommand -/

@[simp] theorem beginCommand_cmd (w : Word) (s : State) : (beginCommand w s).cmd = w := rfl
@[simp] theorem beginCommand_busy (w : Word) (s : State) : (beginCommand w s).busy = true := rfl
@[simp] theorem beginCommand_done (w : Word) (s : State) : (beginCommand w s).done = false := rfl
@[simp] theorem beginCommand_err (w : Word) (s : State) : (beginCommand w s).err = false := rfl
@[simp] theorem beginCommand_matchFlag (w : Word) (s : State) : (beginCommand w s).matchFlag = false := rfl
@[simp] theorem beginCommand_cbReady (w : Word) (s : State) : (beginCommand w s).cbReady = s.cbReady := rfl
@[simp] theorem beginCommand_errcode (w : Word) (s : State) : (beginCommand w s).errcode = 0 := rfl
@[simp] theorem beginCommand_inLen (w : Word) (s : State) : (beginCommand w s).inLen = s.inLen := rfl
@[simp] theorem beginCommand_outLen (w : Word) (s : State) : (beginCommand w s).outLen = s.outLen := rfl
@[simp] theorem beginCommand_inBuf (w : Word) (s : State) : (beginCommand w s).inBuf = s.inBuf := rfl
@[simp] theorem beginCommand_outBuf (w : Word) (s : State) : (beginCommand w s).outBuf = s.outBuf := rfl
@[simp] theorem beginCommand_cb (w : Word) (s : State) : (beginCommand w s).cb = s.cb := rfl
@[simp] theorem beginCommand_resetAsserted (w : Word) (s : State) : (beginCommand w s).resetAsserted = s.resetAsserted := rfl
@[simp] theorem beginCommand_resetCount (w : Word) (s : State) : (beginCommand w s).resetCount = s.resetCount := rfl
@[simp] theorem beginCommand_completionCount (w : Word) (s : State) : (beginCommand w s).completionCount = s.completionCount := rfl
@[simp] theorem beginCommand_port (w : Word) (s : State) : (beginCommand w s).port = s.port := rfl
@[simp] theorem beginCommand_responses (w : Word) (s : State) : (beginCommand w s).responses = s.responses := rfl
@[simp] theorem beginCommand_latency (w : Word) (s : State) : (beginCommand w s).latency = s.latency := rfl
@[simp] theorem beginCommand_busyFor (w : Word) (s : State) : (beginCommand w s).busyFor = s.busyFor := rfl

/-! ### startCommand -/

@[simp] theorem startCommand_cmd (w : Word) (s : State) : (startCommand w s).cmd = w := rfl
@[simp] theorem startCommand_busy (w : Word) (s : State) : (startCommand w s).busy = true := rfl
@[simp] theorem startCommand_done (w : Word) (s : State) : (startCommand w s).done = false := rfl
@[simp] theorem startCommand_err (w : Word) (s : State) : (startCommand w s).err = false := rfl
@[simp] theorem startCommand_matchFlag (w : Word) (s : State) : (startCommand w s).matchFlag = false := rfl
@[simp] theorem startCommand_cbReady (w : Word) (s : State) : (startCommand w s).cbReady = s.cbReady := rfl
@[simp] theorem startCommand_errcode (w : Word) (s : State) : (startCommand w s).errcode = 0 := rfl
@[simp] theorem startCommand_inLen (w : Word) (s : State) : (startCommand w s).inLen = s.inLen := rfl
@[simp] theorem startCommand_outLen (w : Word) (s : State) : (startCommand w s).outLen = s.outLen := rfl
@[simp] theorem startCommand_inBuf (w : Word) (s : State) : (startCommand w s).inBuf = s.inBuf := rfl
@[simp] theorem startCommand_outBuf (w : Word) (s : State) : (startCommand w s).outBuf = s.outBuf := rfl
@[simp] theorem startCommand_cb (w : Word) (s : State) : (startCommand w s).cb = s.cb := rfl
@[simp] theorem startCommand_resetAsserted (w : Word) (s : State) : (startCommand w s).resetAsserted = s.resetAsserted := rfl
@[simp] theorem startCommand_resetCount (w : Word) (s : State) : (startCommand w s).resetCount = s.resetCount := rfl
@[simp] theorem startCommand_completionCount (w : Word) (s : State) : (startCommand w s).completionCount = s.completionCount := rfl
@[simp] theorem startCommand_port (w : Word) (s : State) : (startCommand w s).port = s.port := rfl
@[simp] theorem startCommand_responses (w : Word) (s : State) : (startCommand w s).responses = s.responses := rfl
@[simp] theorem startCommand_latency (w : Word) (s : State) : (startCommand w s).latency = s.latency.tail := rfl
@[simp] theorem startCommand_busyFor (w : Word) (s : State) : (startCommand w s).busyFor = s.latency.headD 0 := rfl

/-! ### finish -/

@[simp] theorem finish_cmd (e : Option ErrCause) (o : List Nat) (f : Bool) (s : State) : (finish e o f s).cmd = s.cmd := rfl
@[simp] theorem finish_busy (e : Option ErrCause) (o : List Nat) (f : Bool) (s : State) : (finish e o f s).busy = false := rfl
@[simp] theorem finish_done (e : Option ErrCause) (o : List Nat) (f : Bool) (s : State) : (finish e o f s).done = true := rfl
@[simp] theorem finish_err (e : Option ErrCause) (o : List Nat) (f : Bool) (s : State) : (finish e o f s).err = e.isSome := rfl
@[simp] theorem finish_matchFlag (e : Option ErrCause) (o : List Nat) (f : Bool) (s : State) : (finish e o f s).matchFlag = f := rfl
@[simp] theorem finish_cbReady (e : Option ErrCause) (o : List Nat) (f : Bool) (s : State) : (finish e o f s).cbReady = s.cbReady := rfl
@[simp] theorem finish_errcode (e : Option ErrCause) (o : List Nat) (f : Bool) (s : State) : (finish e o f s).errcode = (e.map ErrCause.code).getD 0 := rfl
@[simp] theorem finish_inLen (e : Option ErrCause) (o : List Nat) (f : Bool) (s : State) : (finish e o f s).inLen = s.inLen := rfl
@[simp] theorem finish_outLen (e : Option ErrCause) (o : List Nat) (f : Bool) (s : State) : (finish e o f s).outLen = BitVec.ofNat 32 o.length := rfl
@[simp] theorem finish_inBuf (e : Option ErrCause) (o : List Nat) (f : Bool) (s : State) : (finish e o f s).inBuf = s.inBuf := rfl
@[simp] theorem finish_outBuf (e : Option ErrCause) (o : List Nat) (f : Bool) (s : State) : (finish e o f s).outBuf = Memory.ofSeq o := rfl
@[simp] theorem finish_cb (e : Option ErrCause) (o : List Nat) (f : Bool) (s : State) : (finish e o f s).cb = s.cb := rfl
@[simp] theorem finish_resetAsserted (e : Option ErrCause) (o : List Nat) (f : Bool) (s : State) : (finish e o f s).resetAsserted = s.resetAsserted := rfl
@[simp] theorem finish_resetCount (e : Option ErrCause) (o : List Nat) (f : Bool) (s : State) : (finish e o f s).resetCount = s.resetCount := rfl
@[simp] theorem finish_completionCount (e : Option ErrCause) (o : List Nat) (f : Bool) (s : State) : (finish e o f s).completionCount = s.completionCount + 1 := rfl
@[simp] theorem finish_port (e : Option ErrCause) (o : List Nat) (f : Bool) (s : State) : (finish e o f s).port = s.port := rfl
@[simp] theorem finish_responses (e : Option ErrCause) (o : List Nat) (f : Bool) (s : State) : (finish e o f s).responses = s.responses := rfl
@[simp] theorem finish_latency (e : Option ErrCause) (o : List Nat) (f : Bool) (s : State) : (finish e o f s).latency = s.latency := rfl
@[simp] theorem finish_busyFor (e : Option ErrCause) (o : List Nat) (f : Bool) (s : State) : (finish e o f s).busyFor = 0 := rfl

/-! ### raise -/

@[simp] theorem raise_cmd (e : ErrCause) (s : State) : (raise e s).cmd = s.cmd := rfl
@[simp] theorem raise_busy (e : ErrCause) (s : State) : (raise e s).busy = false := rfl
@[simp] theorem raise_done (e : ErrCause) (s : State) : (raise e s).done = true := rfl
@[simp] theorem raise_err (e : ErrCause) (s : State) : (raise e s).err = true := rfl
@[simp] theorem raise_matchFlag (e : ErrCause) (s : State) : (raise e s).matchFlag = false := rfl
@[simp] theorem raise_cbReady (e : ErrCause) (s : State) : (raise e s).cbReady = s.cbReady := rfl
@[simp] theorem raise_errcode (e : ErrCause) (s : State) : (raise e s).errcode = e.code := rfl
@[simp] theorem raise_inLen (e : ErrCause) (s : State) : (raise e s).inLen = s.inLen := rfl
@[simp] theorem raise_outLen (e : ErrCause) (s : State) : (raise e s).outLen = 0 := rfl
@[simp] theorem raise_inBuf (e : ErrCause) (s : State) : (raise e s).inBuf = s.inBuf := rfl
@[simp] theorem raise_outBuf (e : ErrCause) (s : State) : (raise e s).outBuf = [] := rfl
@[simp] theorem raise_cb (e : ErrCause) (s : State) : (raise e s).cb = s.cb := rfl
@[simp] theorem raise_resetAsserted (e : ErrCause) (s : State) : (raise e s).resetAsserted = s.resetAsserted := rfl
@[simp] theorem raise_resetCount (e : ErrCause) (s : State) : (raise e s).resetCount = s.resetCount := rfl
@[simp] theorem raise_completionCount (e : ErrCause) (s : State) : (raise e s).completionCount = s.completionCount + 1 := rfl
@[simp] theorem raise_port (e : ErrCause) (s : State) : (raise e s).port = s.port := rfl
@[simp] theorem raise_responses (e : ErrCause) (s : State) : (raise e s).responses = s.responses := rfl
@[simp] theorem raise_latency (e : ErrCause) (s : State) : (raise e s).latency = s.latency := rfl
@[simp] theorem raise_busyFor (e : ErrCause) (s : State) : (raise e s).busyFor = 0 := rfl

/-! ### complete -/

@[simp] theorem complete_cmd (o : List Nat) (f : Bool) (s : State) : (complete o f s).cmd = s.cmd := rfl
@[simp] theorem complete_busy (o : List Nat) (f : Bool) (s : State) : (complete o f s).busy = false := rfl
@[simp] theorem complete_done (o : List Nat) (f : Bool) (s : State) : (complete o f s).done = true := rfl
@[simp] theorem complete_err (o : List Nat) (f : Bool) (s : State) : (complete o f s).err = false := rfl
@[simp] theorem complete_matchFlag (o : List Nat) (f : Bool) (s : State) : (complete o f s).matchFlag = f := rfl
@[simp] theorem complete_cbReady (o : List Nat) (f : Bool) (s : State) : (complete o f s).cbReady = s.cbReady := rfl
@[simp] theorem complete_errcode (o : List Nat) (f : Bool) (s : State) : (complete o f s).errcode = 0 := rfl
@[simp] theorem complete_inLen (o : List Nat) (f : Bool) (s : State) : (complete o f s).inLen = s.inLen := rfl
@[simp] theorem complete_outLen (o : List Nat) (f : Bool) (s : State) : (complete o f s).outLen = BitVec.ofNat 32 o.length := rfl
@[simp] theorem complete_inBuf (o : List Nat) (f : Bool) (s : State) : (complete o f s).inBuf = s.inBuf := rfl
@[simp] theorem complete_outBuf (o : List Nat) (f : Bool) (s : State) : (complete o f s).outBuf = Memory.ofSeq o := rfl
@[simp] theorem complete_cb (o : List Nat) (f : Bool) (s : State) : (complete o f s).cb = s.cb := rfl
@[simp] theorem complete_resetAsserted (o : List Nat) (f : Bool) (s : State) : (complete o f s).resetAsserted = s.resetAsserted := rfl
@[simp] theorem complete_resetCount (o : List Nat) (f : Bool) (s : State) : (complete o f s).resetCount = s.resetCount := rfl
@[simp] theorem complete_completionCount (o : List Nat) (f : Bool) (s : State) : (complete o f s).completionCount = s.completionCount + 1 := rfl
@[simp] theorem complete_port (o : List Nat) (f : Bool) (s : State) : (complete o f s).port = s.port := rfl
@[simp] theorem complete_responses (o : List Nat) (f : Bool) (s : State) : (complete o f s).responses = s.responses := rfl
@[simp] theorem complete_latency (o : List Nat) (f : Bool) (s : State) : (complete o f s).latency = s.latency := rfl
@[simp] theorem complete_busyFor (o : List Nat) (f : Bool) (s : State) : (complete o f s).busyFor = 0 := rfl

/-! ### resetBlock -/

@[simp] theorem resetBlock_cmd (s : State) : (resetBlock s).cmd = 0 := rfl
@[simp] theorem resetBlock_busy (s : State) : (resetBlock s).busy = false := rfl
@[simp] theorem resetBlock_done (s : State) : (resetBlock s).done = false := rfl
@[simp] theorem resetBlock_err (s : State) : (resetBlock s).err = false := rfl
@[simp] theorem resetBlock_matchFlag (s : State) : (resetBlock s).matchFlag = false := rfl
@[simp] theorem resetBlock_cbReady (s : State) : (resetBlock s).cbReady = false := rfl
@[simp] theorem resetBlock_errcode (s : State) : (resetBlock s).errcode = 0 := rfl
@[simp] theorem resetBlock_inLen (s : State) : (resetBlock s).inLen = 0 := rfl
@[simp] theorem resetBlock_outLen (s : State) : (resetBlock s).outLen = 0 := rfl
@[simp] theorem resetBlock_inBuf (s : State) : (resetBlock s).inBuf = [] := rfl
@[simp] theorem resetBlock_outBuf (s : State) : (resetBlock s).outBuf = [] := rfl
@[simp] theorem resetBlock_cb (s : State) : (resetBlock s).cb = List.replicate 256 ⟨0, 0⟩ := rfl
@[simp] theorem resetBlock_resetAsserted (s : State) : (resetBlock s).resetAsserted = s.resetAsserted := rfl
@[simp] theorem resetBlock_resetCount (s : State) : (resetBlock s).resetCount = s.resetCount + 1 := rfl
@[simp] theorem resetBlock_completionCount (s : State) : (resetBlock s).completionCount = s.completionCount + 1 := rfl
@[simp] theorem resetBlock_port (s : State) : (resetBlock s).port = s.port := rfl
@[simp] theorem resetBlock_responses (s : State) : (resetBlock s).responses = s.responses := rfl
@[simp] theorem resetBlock_latency (s : State) : (resetBlock s).latency = s.latency := rfl
@[simp] theorem resetBlock_busyFor (s : State) : (resetBlock s).busyFor = 0 := rfl

/-! ### setResetInput -/

/-- The block takes its reset values, or the input was not asserted and is not. -/
theorem setResetInput_cases (l : Bool) (s : State) :
    ((l = true ∨ s.resetAsserted = true) ∧ setResetInput l s = { resetBlock s with resetAsserted := l }) ∨
    (l = false ∧ s.resetAsserted = false ∧ setResetInput l s = s) := by
  unfold setResetInput
  by_cases h : (l || s.resetAsserted) = true
  · exact .inl ⟨Bool.or_eq_true_iff.mp h, if_pos h⟩
  · obtain ⟨h1, h2⟩ := Bool.or_eq_false_iff.mp (Bool.eq_false_iff.mpr h)
    exact .inr ⟨h1, h2, if_neg h⟩

@[simp] theorem setResetInput_resetAsserted (l : Bool) (s : State) : (setResetInput l s).resetAsserted = l := by
  rcases setResetInput_cases l s with ⟨_, e⟩ | ⟨h1, h2, e⟩ <;> rw [e]; exact h2.trans h1.symm
@[simp] theorem setResetInput_port (l : Bool) (s : State) : (setResetInput l s).port = s.port := by
  unfold setResetInput; split <;> rfl
@[simp] theorem setResetInput_responses (l : Bool) (s : State) : (setResetInput l s).responses = s.responses := by
  unfold setResetInput; split <;> rfl
@[simp] theorem setResetInput_latency (l : Bool) (s : State) : (setResetInput l s).latency = s.latency := by
  unfold setResetInput; split <;> rfl

/-! ### effectOf -/

@[simp] theorem effectOf_read (off width : Nat) (s : State) : effectOf s (.read off width) = s := rfl

/-- While the reset input is asserted no write does anything. -/
theorem effectOf_write_of_asserted (off width value : Nat) (s : State) (h : s.resetAsserted = true) :
    effectOf s (.write off width value) = s := if_pos h

/-- While it is not, a write does what the register or the window it reaches does with it. -/
theorem effectOf_write_of_released (off width value : Nat) (s : State) (h : s.resetAsserted = false) :
    effectOf s (.write off width value) = match targetOf off width with
      | .register r => writeRegister (BitVec.ofNat 32 value) s r
      | .inWindow i => { s with inBuf := s.inBuf.write i (BitVec.ofNat 8 value) }
      | .outWindow _ | .unmapped => s := if_neg (by simp [h])

/-! ### eventLanded -/

@[simp] theorem eventLanded_cmd (s : State) : (eventLanded s).cmd = s.cmd := rfl
@[simp] theorem eventLanded_busy (s : State) : (eventLanded s).busy = s.busy := rfl
@[simp] theorem eventLanded_done (s : State) : (eventLanded s).done = s.done := rfl
@[simp] theorem eventLanded_err (s : State) : (eventLanded s).err = s.err := rfl
@[simp] theorem eventLanded_matchFlag (s : State) : (eventLanded s).matchFlag = s.matchFlag := rfl
@[simp] theorem eventLanded_cbReady (s : State) : (eventLanded s).cbReady = s.cbReady := rfl
@[simp] theorem eventLanded_errcode (s : State) : (eventLanded s).errcode = s.errcode := rfl
@[simp] theorem eventLanded_inLen (s : State) : (eventLanded s).inLen = s.inLen := rfl
@[simp] theorem eventLanded_outLen (s : State) : (eventLanded s).outLen = s.outLen := rfl
@[simp] theorem eventLanded_inBuf (s : State) : (eventLanded s).inBuf = s.inBuf := rfl
@[simp] theorem eventLanded_outBuf (s : State) : (eventLanded s).outBuf = s.outBuf := rfl
@[simp] theorem eventLanded_cb (s : State) : (eventLanded s).cb = s.cb := rfl
@[simp] theorem eventLanded_resetAsserted (s : State) : (eventLanded s).resetAsserted = s.resetAsserted := rfl
@[simp] theorem eventLanded_resetCount (s : State) : (eventLanded s).resetCount = s.resetCount := rfl
@[simp] theorem eventLanded_completionCount (s : State) : (eventLanded s).completionCount = s.completionCount := rfl
@[simp] theorem eventLanded_port (s : State) : (eventLanded s).port = s.port := rfl
@[simp] theorem eventLanded_responses (s : State) : (eventLanded s).responses = s.responses := rfl
@[simp] theorem eventLanded_latency (s : State) : (eventLanded s).latency = s.latency := rfl
@[simp] theorem eventLanded_busyFor (s : State) : (eventLanded s).busyFor = s.busyFor - 1 := rfl

/-! ### ensureCb -/

theorem ensureCb_of_ready (s : State) (h : s.cbReady = true) : ensureCb s = s := if_pos h
theorem ensureCb_of_not_ready (s : State) (h : s.cbReady = false) :
    ensureCb s = { s with cb := cbBuilt, cbReady := true } := if_neg (by simp [h])

@[simp] theorem ensureCb_cmd (s : State) : (ensureCb s).cmd = s.cmd := by unfold ensureCb; split <;> rfl
@[simp] theorem ensureCb_busy (s : State) : (ensureCb s).busy = s.busy := by unfold ensureCb; split <;> rfl
@[simp] theorem ensureCb_done (s : State) : (ensureCb s).done = s.done := by unfold ensureCb; split <;> rfl
@[simp] theorem ensureCb_err (s : State) : (ensureCb s).err = s.err := by unfold ensureCb; split <;> rfl
@[simp] theorem ensureCb_matchFlag (s : State) : (ensureCb s).matchFlag = s.matchFlag := by unfold ensureCb; split <;> rfl
@[simp] theorem ensureCb_cbReady (s : State) : (ensureCb s).cbReady = true := by unfold ensureCb; split <;> simp_all
@[simp] theorem ensureCb_errcode (s : State) : (ensureCb s).errcode = s.errcode := by unfold ensureCb; split <;> rfl
@[simp] theorem ensureCb_inLen (s : State) : (ensureCb s).inLen = s.inLen := by unfold ensureCb; split <;> rfl
@[simp] theorem ensureCb_outLen (s : State) : (ensureCb s).outLen = s.outLen := by unfold ensureCb; split <;> rfl
@[simp] theorem ensureCb_inBuf (s : State) : (ensureCb s).inBuf = s.inBuf := by unfold ensureCb; split <;> rfl
@[simp] theorem ensureCb_outBuf (s : State) : (ensureCb s).outBuf = s.outBuf := by unfold ensureCb; split <;> rfl
theorem ensureCb_cb (s : State) : (ensureCb s).cb = if s.cbReady then s.cb else cbBuilt := by unfold ensureCb; split <;> rfl
@[simp] theorem ensureCb_resetAsserted (s : State) : (ensureCb s).resetAsserted = s.resetAsserted := by unfold ensureCb; split <;> rfl
@[simp] theorem ensureCb_resetCount (s : State) : (ensureCb s).resetCount = s.resetCount := by unfold ensureCb; split <;> rfl
@[simp] theorem ensureCb_completionCount (s : State) : (ensureCb s).completionCount = s.completionCount := by unfold ensureCb; split <;> rfl
@[simp] theorem ensureCb_port (s : State) : (ensureCb s).port = s.port := by unfold ensureCb; split <;> rfl
@[simp] theorem ensureCb_responses (s : State) : (ensureCb s).responses = s.responses := by unfold ensureCb; split <;> rfl
@[simp] theorem ensureCb_latency (s : State) : (ensureCb s).latency = s.latency := by unfold ensureCb; split <;> rfl
@[simp] theorem ensureCb_busyFor (s : State) : (ensureCb s).busyFor = s.busyFor := by unfold ensureCb; split <;> rfl

/-! ### What reads a cell sees only the fields it names -/

/-- `IN` cells depend on the buffer and the reset counter alone. -/
theorem inCell_congr {s t : State} (hb : t.inBuf = s.inBuf) (hr : t.resetCount = s.resetCount) (i : Nat) :
    inCell t i = inCell s i := by simp only [inCell, hb, hr]

end Sys2Proof.Machine
end

