-- ==== Sys2Proof/Laws/Ops.lean ====
section
/-! SUPPORT. What each shared operation can do, once: callers cite these lemmas and do not unfold the operation. -/

namespace Sys2Proof.Machine

theorem raise_eq_finish (e : ErrCause) (s : State) : raise e s = finish (some e) [] false s := rfl

theorem complete_eq_finish (o : List Nat) (f : Bool) (s : State) : complete o f s = finish none o f s := rfl

/-- The capacity check raises or goes on. -/
theorem guardInLen_cases (s : State) (k : State → State) :
    (¬ InLenFits s ∧ guardInLen s k = raise .capacity s) ∨ (InLenFits s ∧ guardInLen s k = k s) := by
  unfold guardInLen InLenFits
  split
  · exact .inl ⟨by omega, rfl⟩
  · exact .inr ⟨by omega, rfl⟩

/-- A result is delivered whole, or it is too long and the command ends in `ERR_CAPACITY`. -/
theorem deliver_cases (r : List Nat) (s : State) :
    (r.length ≤ Config.outCap ∧ deliver r s = complete r false s) ∨
    (Config.outCap < r.length ∧ deliver r s = raise .capacity s) := by
  unfold deliver
  split
  · exact .inr ⟨by assumption, rfl⟩
  · exact .inl ⟨by omega, rfl⟩

/-- A function that may raise: its result is delivered, or its error raised. -/
theorem deliverOrRaise_cases (r : Except ErrCause (List Nat)) (s : State) :
    (∃ out, r = .ok out ∧ deliverOrRaise r s = deliver out s) ∨ (∃ e, r = .error e ∧ deliverOrRaise r s = raise e s) := by
  cases r with
  | ok out => exact .inl ⟨out, rfl, rfl⟩
  | error e => exact .inr ⟨e, rfl, rfl⟩

/-- The Codebook commands' operand is the one they found. -/
@[simp] theorem operand_ensureCb (s : State) : operand (ensureCb s) = operand s :=
  operand_congr (by simp) (by simp) (by simp)

@[simp] theorem inCell_ensureCb (s : State) (i : Nat) : inCell (ensureCb s) i = inCell s i :=
  inCell_congr (by simp) (by simp) i

@[simp] theorem inCell_finish (e : Option ErrCause) (o : List Nat) (f : Bool) (s : State) (i : Nat) :
    inCell (finish e o f s) i = inCell s i := inCell_congr (by simp) (by simp) i

/-- After a completion with the result `o`, `OUT[i]` is its element `i`. -/
theorem outCell_finish (e : Option ErrCause) (o : List Nat) (f : Bool) (s : State) (i : Nat) (ho : o.length ≤ Config.outCap)
    (hi : i < o.length) : outCell (finish e o f s) i = BitVec.ofNat 8 o[i] := by
  have hlen : (BitVec.ofNat 32 o.length).toNat = o.length := by
    rw [BitVec.toNat_ofNat, Nat.mod_eq_of_lt]
    exact ho.trans_lt (by decide)
  simp [outCell, Memory.read_ofSeq, hlen, hi]

/-- `OUT_LEN` holds the length of every result that fits. -/
theorem finish_outLen_toNat (e : Option ErrCause) (o : List Nat) (f : Bool) (s : State) (ho : o.length ≤ Config.outCap) :
    (finish e o f s).outLen.toNat = o.length := by
  rw [finish_outLen, BitVec.toNat_ofNat, Nat.mod_eq_of_lt]
  exact ho.trans_lt (by decide)

end Sys2Proof.Machine
end

