-- ==== Sys2Proof/Laws/Exec.lean ====
section
/-! SUPPORT. What a command and a step can do, once: a command that answers ends in one `finish` of the state it found, the Codebook
built or not; a step is idle, an event, or a completion; and a run is its first step and the rest. -/

namespace Sys2Proof.Machine

theorem complete_eq_afterSuccess (o : List Nat) (f : Bool) (s : State) : complete o f s = afterSuccess s o f := rfl

theorem raise_eq_afterError (e : ErrCause) (s : State) : raise e s = afterError s e.code := rfl

/-- `t` is a completion of `s`: a result that fits in `OUT`, an error without a result, a match only with one rank. -/
def CompletionOf (s t : State) : Prop :=
  ∃ c o f, t = finish c o f s ∧ o.length ≤ Config.outCap ∧ (c.isSome → o = [] ∧ f = false) ∧ (f = true → o.length = 1)

theorem completionOf_raise (e : ErrCause) (s : State) : CompletionOf s (raise e s) :=
  ⟨some e, [], false, rfl, Nat.zero_le _, fun _ => ⟨rfl, rfl⟩, fun h => nomatch h⟩

theorem completionOf_complete (o : List Nat) (f : Bool) (s : State) (h : o.length ≤ Config.outCap)
    (hf : f = true → o.length = 1) : CompletionOf s (complete o f s) := ⟨none, o, f, rfl, h, fun h => (nomatch h), hf⟩

theorem completionOf_deliver (o : List Nat) (s : State) : CompletionOf s (deliver o s) := by
  rcases deliver_cases o s with ⟨h, e⟩ | ⟨_, e⟩
  · rw [e]; exact completionOf_complete _ _ _ h (fun h => nomatch h)
  · rw [e]; exact completionOf_raise _ _

theorem completionOf_deliverOrRaise (r : Except ErrCause (List Nat)) (s : State) : CompletionOf s (deliverOrRaise r s) := by
  cases r with
  | ok o => exact completionOf_deliver o s
  | error e => exact completionOf_raise e s

theorem guardInLen_completionOf (s : State) (k : State → State) (h : InLenFits s → CompletionOf s (k s)) :
    CompletionOf s (guardInLen s k) := by
  rcases guardInLen_cases s k with ⟨_, e⟩ | ⟨hf, e⟩
  · rw [e]; exact completionOf_raise _ _
  · rw [e]; exact h hf

/-- A command that uses the Codebook behind the operand check. -/
theorem guardInLen_ensureCb_completionOf (s : State) (k : State → State) (h : CompletionOf (ensureCb s) (k s)) :
    ∃ s', CompletionOf s' (guardInLen s k) ∧ ((InLenFits s ∧ s' = ensureCb s) ∨ (¬ InLenFits s ∧ s' = s)) := by
  rcases guardInLen_cases s k with ⟨hf, e⟩ | ⟨hf, e⟩
  · exact ⟨s, by rw [e]; exact completionOf_raise _ _, .inr ⟨hf, rfl⟩⟩
  · exact ⟨ensureCb s, by rw [e]; exact h, .inl ⟨hf, rfl⟩⟩

theorem rankOrder_length_le (x : List Nat) : (rankOrder x).length ≤ 256 := by
  rw [rankOrder, List.length_map]
  refine (List.length_take_le' _ _).trans ?_
  simp [freqTable]

/-- Every command answers, and its answer is one completion of the state it found, the Codebook built first or not touched. -/
theorem exec_completes (i : Instr) (s : State) : ∃ s' t, exec i s = .next t ∧ CompletionOf s' t ∧
    ((UsesCodebook i s ∧ s' = ensureCb s) ∨ (¬ UsesCodebook i s ∧ s' = s)) := by
  cases i with
  | radixConvert a b =>
    refine ⟨s, _, rfl, guardInLen_completionOf s _ fun _ => ?_, .inr ⟨not_false, rfl⟩⟩
    split
    · exact completionOf_raise _ _
    · split
      · exact completionOf_raise _ _
      · exact completionOf_deliver _ _
  | cbBuild =>
    exact ⟨_, _, rfl, completionOf_complete _ _ _ (Nat.zero_le _) (fun h => nomatch h), .inl ⟨trivial, rfl⟩⟩
  | cbEncode r =>
    refine ⟨_, _, rfl, completionOf_complete _ _ _ ?_ (fun h => nomatch h), .inl ⟨trivial, rfl⟩⟩
    exact (cbPattern_length_lt (ensureCb s).cb r).le.trans (by decide)
  | cbDecode =>
    obtain ⟨s', h1, h2⟩ := guardInLen_ensureCb_completionOf s (fun s =>
      let s := ensureCb s
      if ¬ AllDigits 2 (operand s) then raise .digit s
      else match cbLookup s.cb (operand s) with
        | some r => complete [r] true s
        | none => complete [] false s) (by
        simp only
        split
        · exact completionOf_raise _ _
        · split
          · exact completionOf_complete _ _ _ (Nat.one_le_two_pow (n := 16)) (fun _ => rfl)
          · exact completionOf_complete _ _ _ (Nat.zero_le _) (fun h => nomatch h))
    exact ⟨s', _, rfl, h1, h2⟩
  | frRank =>
    refine ⟨s, _, rfl, guardInLen_completionOf s _ fun _ => ?_, .inr ⟨not_false, rfl⟩⟩
    exact completionOf_complete _ _ _ ((rankOrder_length_le _).trans (by decide)) (fun h => nomatch h)
  | dictSer =>
    refine ⟨s, _, rfl, guardInLen_completionOf s _ fun _ => ?_, .inr ⟨not_false, rfl⟩⟩
    split
    · exact completionOf_raise _ _
    · exact completionOf_deliver _ _
  | dictDes =>
    exact ⟨s, _, rfl, guardInLen_completionOf s _ fun _ => completionOf_deliverOrRaise _ _, .inr ⟨not_false, rfl⟩⟩
  | egcEnc =>
    obtain ⟨s', h1, h2⟩ := guardInLen_ensureCb_completionOf s (fun s =>
      let s := ensureCb s
      deliverOrRaise (egcEncode s.cb (operand s)) s) (completionOf_deliverOrRaise _ _)
    exact ⟨s', _, rfl, h1, h2⟩
  | egcDec =>
    obtain ⟨s', h1, h2⟩ := guardInLen_ensureCb_completionOf s (fun s =>
      let s := ensureCb s
      deliverOrRaise (egcDecode s.cb (operand s)) s) (completionOf_deliverOrRaise _ _)
    exact ⟨s', _, rfl, h1, h2⟩

/-- The completion step: one completion of the state it found. -/
theorem completeCommand_completes (s : State) :
    ∃ s' t, completeCommand s = .next t ∧ CompletionOf s' t ∧ (s' = ensureCb s ∨ s' = s) := by
  unfold completeCommand
  cases decode s.cmd with
  | error e => exact ⟨s, _, rfl, completionOf_raise _ _, .inr rfl⟩
  | ok i =>
    obtain ⟨s', t, h1, h2, h3⟩ := exec_completes i s
    exact ⟨s', t, h1, h2, h3.imp And.right And.right⟩

/-- What a step is: idle, the next event, the completion, or an event while the command runs. -/
theorem step_cases (s : State) :
    (s.busy = false ∧ s.port = [] ∧ step s = .next s) ∨
    (∃ e rest, s.busy = false ∧ s.port = e :: rest ∧ step s = .next (serve e rest s)) ∨
    (s.busy = true ∧ (s.busyFor = 0 ∨ s.port = []) ∧ step s = completeCommand s) ∨
    (∃ e rest n, s.busy = true ∧ s.busyFor = n + 1 ∧ s.port = e :: rest ∧ step s = serveBusy e rest s) := by
  unfold step
  cases hb : s.busy <;> cases hf : s.busyFor <;> cases hp : s.port <;> simp

/-! ### Runs -/

theorem run_succ (M : Host.Core) (k : Nat) (s t : M.State) (h : M.step s = .next t) : M.run (k + 1) s = M.run k t := by
  rw [Host.Core.run, h]

theorem run_add (M : Host.Core) (k m : Nat) (s t : M.State) (h : M.run k s = .next t) : M.run (k + m) s = M.run m t := by
  induction k generalizing s with
  | zero => cases h; simp
  | succ k ih =>
    rw [show k + 1 + m = (k + m) + 1 by omega]
    rw [Host.Core.run] at h ⊢
    cases hs : M.step s with
    | next s' => rw [hs] at h; exact ih s' h
    | fault r => rw [hs] at h; cases h
    | refused r => rw [hs] at h; cases h

end Sys2Proof.Machine
end

