-- ==== Sys2Proof/Laws/PerInstr.lean ====
section
/-! SUPPORT. Statements about every command, one lemma per constructor. `RowMatch`: the word of a well-formed command is the one its
row of the opcode map describes (R57). -/

namespace Sys2Proof.Laws

/-- The opcode map has a row with the command's mnemonic, and the command's word selects it. -/
def RowMatch.Statement (i : Instr) : Prop :=
  i.WellFormed → ∃ row ∈ opcodeTable, row.mnemonic = i.mnemonic ∧ encode i &&& row.maskWord = row.matchWord

theorem RowMatch.radixConvert (sourceBase targetBase : Nat) : RowMatch.Statement (.radixConvert sourceBase targetBase) := by
  intro _
  refine ⟨⟨"RADIX.CONVERT", 0x00000001, 0xFC0000FF⟩, by simp [opcodeTable], rfl, ?_⟩
  apply BitVec.eq_of_getLsbD_eq
  intro i hi
  simp only [encode, assemble, BitVec.getLsbD_and, BitVec.getLsbD_append]
  interval_cases i <;> simp

theorem RowMatch.cbBuild : RowMatch.Statement .cbBuild := fun _ => by decide

theorem RowMatch.cbEncode (rank : Nat) : RowMatch.Statement (.cbEncode rank) := by
  intro h
  refine ⟨⟨"CB.ENCODE", 0x00000003, 0xFFFF00FF⟩, by simp [opcodeTable], rfl, ?_⟩
  have h8 : (BitVec.ofNat 9 rank)[8] = false := by
    rw [← BitVec.getLsbD_eq_getElem, BitVec.getLsbD_ofNat, Nat.testBit_lt_two_pow (show rank < 2 ^ 8 from h)]; rfl
  apply BitVec.eq_of_getLsbD_eq
  intro i hi
  simp only [encode, assemble, BitVec.getLsbD_and, BitVec.getLsbD_append]
  interval_cases i <;> simp [h8]

theorem RowMatch.cbDecode : RowMatch.Statement .cbDecode := fun _ => by decide
theorem RowMatch.frRank : RowMatch.Statement .frRank := fun _ => by decide
theorem RowMatch.dictSer : RowMatch.Statement .dictSer := fun _ => by decide
theorem RowMatch.dictDes : RowMatch.Statement .dictDes := fun _ => by decide
theorem RowMatch.egcEnc : RowMatch.Statement .egcEnc := fun _ => by decide
theorem RowMatch.egcDec : RowMatch.Statement .egcDec := fun _ => by decide

end Sys2Proof.Laws
end

