-- ==== Sys2Proof/Tests/Slice0.lean ====
section
/-! SUPPORT. Tests: the refusals of `WellFormed`, words of the spec's encoding decoded, one or two vectors of
spec/95_test_vectors.md per command, and for every obligation with hypotheses a state and operands that meet them. -/

namespace Sys2Proof.Tests

open Sys2Proof Sys2Proof.Machine

/-- The state after reset with `l` loaded in `IN` and `IN_LEN`. -/
def given (l : List Nat) : State := { State.reset with inBuf := Memory.ofSeq l, inLen := BitVec.ofNat 32 l.length }

/-- What a command word leaves on the operand `l`: the result and `STATUS`. -/
def after (w : Nat) (l : List Nat) : Option (List Nat × Word) :=
  match step ((given l).withFetchWord 32 w) with
  | .next t => some (result t, t.statusWord)
  | .fault _ | .refused _ => none

/-- The first `IN_LEN` that does not fit. -/
def overlong : State := { given [1] with inLen := 65537 }

/-- A command word in execution, with host events to land before it completes. -/
def running (w : Word) (busyFor : Nat) (port : List HostEvent) : State :=
  { beginCommand w (given [1]) with busyFor := busyFor, port := port }

/-- The state after reset with host events on the port. -/
def facing (port : List HostEvent) : State := { given [1] with port := port }

/-- The state while the reset input is asserted, with host events on the port. -/
def held (port : List HostEvent) : State := { State.reset with resetAsserted := true, port := port }

theorem given_inv (l : List Nat) : (given l).inBuf.below Config.inCap = true → (given l).Inv := fun h =>
  ⟨Memory.ofSeq_wf l, h, rfl, rfl, rfl, Nat.zero_le _, List.length_replicate, fun h => (nomatch h), fun h => (nomatch h.1),
    fun _ => rfl, fun h => (nomatch h), fun h => (nomatch h), fun h => (nomatch h)⟩

theorem overlong_inv : overlong.Inv :=
  ⟨rfl, rfl, rfl, rfl, rfl, Nat.zero_le _, List.length_replicate, fun h => (nomatch h), fun h => (nomatch h.1),
    fun _ => rfl, fun h => (nomatch h), fun h => (nomatch h), fun h => (nomatch h)⟩

theorem running_inv (w : Word) (n : Nat) (port : List HostEvent) : (running w n port).Inv :=
  ⟨rfl, rfl, rfl, rfl, rfl, Nat.zero_le _, List.length_replicate, fun h => (nomatch h), fun h => (nomatch h.2),
    fun _ => rfl, fun h => (nomatch h), fun h => (nomatch h), fun h => (nomatch h)⟩

theorem held_inv (port : List HostEvent) : (held port).Inv :=
  ⟨rfl, rfl, rfl, rfl, rfl, Nat.zero_le _, List.length_replicate, fun h => (nomatch h), fun h => (nomatch h.1),
    fun _ => rfl, fun h => (nomatch h), fun h => (nomatch h), fun _ => ⟨rfl, show State.reset.statusWord = 0 by decide, rfl, rfl, rfl⟩⟩

theorem operand_given (l : List Nat) (hl : l.length ≤ 65537) (h : ∀ x ∈ l, x < 256) : operand (given l) = l :=
  operand_ofSeq _ l rfl rfl (by omega) h

/-! ### Well-formedness: one ill-formed term per check -/

theorem test_source_base_of_ten_bits_refused : (Instr.radixConvert 512 2).wellFormed = false := by decide
theorem test_target_base_of_ten_bits_refused : (Instr.radixConvert 2 512).wellFormed = false := by decide
theorem test_rank_of_nine_bits_refused : (Instr.cbEncode 256).wellFormed = false := by decide

/-! ### Decoding: words written out from R53 to R62, with the byte lanes of R41 -/

theorem test_decode_radixConvert : decodeBytes [0x01, 0x0A, 0x20, 0x00] = .ok (.radixConvert 10 16) := by decide
theorem test_decode_cbBuild : decodeBytes [0x02, 0x00, 0x00, 0x00] = .ok .cbBuild := by decide
theorem test_decode_cbEncode : decodeBytes [0x03, 0xFE, 0x00, 0x00] = .ok (.cbEncode 254) := by decide
theorem test_decode_cbDecode : decodeBytes [0x04, 0x00, 0x00, 0x00] = .ok .cbDecode := by decide
theorem test_decode_frRank : decodeBytes [0x05, 0x00, 0x00, 0x00] = .ok .frRank := by decide
theorem test_decode_dictSer : decodeBytes [0x06, 0x00, 0x00, 0x00] = .ok .dictSer := by decide
theorem test_decode_dictDes : decodeBytes [0x07, 0x00, 0x00, 0x00] = .ok .dictDes := by decide
theorem test_decode_egcEnc : decodeBytes [0x08, 0x00, 0x00, 0x00] = .ok .egcEnc := by decide
theorem test_decode_egcDec : decodeBytes [0x09, 0x00, 0x00, 0x00] = .ok .egcDec := by decide
theorem test_decode_terunpack : decode 0x00070001 = .ok .terunpack := by decide
theorem test_decode_target_300 : decode 0x02580401 = .ok (.radixConvert 4 300) := by decide
theorem test_decode_refuses_opcode_0 : decode 0x00000000 = .error .unknownOpcode := by decide
theorem test_decode_refuses_opcode_10 : decode 0x0000000A = .error .unknownOpcode := by decide
theorem test_decode_refuses_reserved_bit : decode 0x04000201 = .error .reservedField := by decide
theorem test_decode_refuses_operand_of_format_Z : decode 0x00000102 = .error .operandField := by decide
theorem test_decode_refuses_bit_8_of_a_rank : decode 0x00010003 = .error .operandField := by decide
theorem test_decode_refuses_three_bytes : decodeBytes [0x02, 0x00, 0x00] = .error .notOneWord := by decide
theorem test_table_word : decodeTableWord 32 0x00070001 = some .terunpack := by decide
theorem test_encode_bitpack : encode .bitpack = 0x02000201 := by decide

/-! ### Commands: vectors of spec/95_test_vectors.md -/

/-- V-R3. -/
theorem test_radixConvert_255_to_hex : after 0x00200A01 [2, 5, 5] = some ([15, 15], 0x00000002) := by decide +kernel
/-- V-R34: both bases bad and both digits bad. -/
theorem test_radixConvert_base_before_digit : after 0x00020001 [9, 9] = some ([], 0x00000206) := by decide +kernel
/-- V-C1. -/
theorem test_cbBuild : after 0x00000002 [] = some ([], 0x00000012) := by decide +kernel
/-- V-C18. -/
theorem test_cbEncode_255 :
    after 0x0000FF03 [] = some ([0, 0, 0, 0, 0, 0, 0, 1, 0, 0, 0, 0, 0, 0, 0, 1], 0x00000012) := by decide +kernel
/-- V-C7. -/
theorem test_cbEncode_6 : after 0x00000603 [] = some ([0, 0, 1, 0, 0, 0], 0x00000012) := by decide +kernel
/-- V-C19. -/
theorem test_cbDecode_found : after 0x00000004 [0, 0, 1, 0, 1, 1] = some ([9], 0x0000001A) := by decide +kernel
/-- V-C32: would be rank 256. -/
theorem test_cbDecode_not_found :
    after 0x00000004 [0, 0, 0, 0, 0, 0, 0, 1, 0, 0, 0, 0, 0, 0, 1, 0] = some ([], 0x00000012) := by decide +kernel
/-- V-F9. -/
theorem test_frRank_counts : after 0x00000005 [5, 5, 9, 9, 9, 1] = some ([9, 5, 1], 0x00000002) := by decide +kernel
/-- V-F8: a tie goes to the smaller value. -/
theorem test_frRank_tie : after 0x00000005 [255, 0, 255, 0] = some ([0, 255], 0x00000002) := by decide +kernel
/-- V-D9. -/
theorem test_dictSer : after 0x00000006 [0x69, 0x73, 0x70, 0x4D] = some ([0x0F, 0xAB, 0x61, 0xEE, 0xF2, 0xEA, 0x63], 0x00000002) := by
  decide +kernel
/-- V-D20. -/
theorem test_dictSer_empty : after 0x00000006 [] = some ([], 0x00000406) := by decide +kernel
/-- V-D37: the first sum wraps. -/
theorem test_dictDes_wraps : after 0x00000007 [0x15, 0x2C, 0x86] = some ([0, 2], 0x00000002) := by decide +kernel
/-- V-D36: a group value above 255. -/
theorem test_dictDes_corrupt : after 0x00000007 [0xC0, 0x37] = some ([], 0x00000606) := by decide +kernel
/-- V-E6g. -/
theorem test_egcEnc : after 0x00000008 [2, 1, 0, 1, 0, 0] = some ([0xFE, 0x01, 0x13, 0xBA, 0x13, 0x42], 0x00000012) := by
  decide +kernel
/-- V-E6g, the other way. -/
theorem test_egcDec : after 0x00000009 [0xFE, 0x01, 0x13, 0xBA, 0x13, 0x42] = some ([2, 1, 0, 1, 0, 0], 0x00000012) := by
  decide +kernel
/-- A two-byte frame is too short (R140). -/
theorem test_egcDec_short_frame : after 0x00000009 [0xFF, 0x00] = some ([], 0x00000616) := by decide +kernel
/-- R59, R153: an illegal word. -/
theorem test_illegal_word : after 0x00010003 [1] = some ([], 0x00000106) := by decide +kernel

/-- R167: a write of `IN_LEN` while the reset input is asserted does nothing; one after the release is stored. -/
theorem test_reset_holds_IN_LEN :
    (match Host.Core.run Sys2Proof.core 3
        (held [.access (.write 0x08 4 7), .resetInput false, .access (.write 0x08 4 9)]) with
      | .next (t : State) => some (t.inLen, t.resetAsserted)
      | _ => none) = some (9, false) ∧
    (match step (held [.access (.write 0x08 4 7)]) with
      | .next t => some t.inLen
      | _ => none) = some 0 := by decide

/-! ### Witnesses: a state and operands that meet the hypotheses of each obligation -/

theorem test_witness_DecodeOfEncodeIsTheCommand :
    (Instr.radixConvert 511 511).WellFormed ∧ (Instr.cbEncode 255).WellFormed ∧ Instr.egcDec.WellFormed := by decide

theorem test_witness_EncodeOfDecodeIsTheWord : decode 0x0000FF03 = .ok (.cbEncode 255) := by decide

/-- Each clause of R59 at its first word, and the last legal opcode; nothing is on the port, or nothing is to land. -/
theorem test_witness_IllegalWordsEndInErrIllegal :
    (running 0x0000000A 0 []).busy = true ∧ (running 0x0000000A 0 []).busyFor = 0 ∧
    IllegalByRule (running 0x0000000A 0 []).cmd ∧ IllegalByRule 0x00000000 ∧ IllegalByRule 0x04000001 ∧
    IllegalByRule 0x00000102 ∧ IllegalByRule 0x00020009 ∧ IllegalByRule 0x00020003 ∧ IllegalByRule 0x00010003 ∧
    ¬ IllegalByRule 0x00000009 ∧ ¬ IllegalByRule 0x03FFFF01 := by
  exact ⟨rfl, rfl, by decide, by decide, by decide, by decide, by decide, by decide, by decide, by decide, by decide⟩

theorem test_witness_StepRunsTheDecodedCommand :
    (running 0x00000009 0 []).busy = true ∧ (running 0x00000009 0 []).busyFor = 0 ∧
    (running 0x00000009 1 []).port = [] ∧ decode (running 0x00000009 0 []).cmd = .ok .egcDec := by decide

theorem test_witness_WriteOfCmdStartsTheCommand :
    (facing [.access (.write 0x00 4 2)]).busy = false ∧ (facing [.access (.write 0x00 4 2)]).resetAsserted = false ∧
    (facing [.access (.write 0x00 4 2)]).port = .access (.write 0x00 4 2) :: [] := ⟨rfl, rfl, rfl⟩

theorem test_witness_EveryStartedCommandReachesDone :
    let s := running 0x00000005 1 [.access (.read 0x04 4), .resetInput true]
    s.busy = true ∧ ∀ e ∈ s.port.take s.busyFor, e = .access (.read 0x04 4) := by decide

/-- The one step that is refused. -/
theorem test_witness_OnlyTheBusyRuleStopsAStep :
    let s := running 0x00000005 1 [.access (.read 0x0C 4)]
    s.busy = true ∧ s.busyFor ≠ 0 ∧ ∃ a rest, s.port = .access a :: rest ∧ a ≠ .read 0x04 4 :=
  ⟨rfl, by decide, _, _, rfl, by decide⟩

theorem test_witness_PollWhileBusyReadsBusy :
    let s := running 0x00000005 1 [.access (.read 0x04 4)]
    s.Inv ∧ s.busy = true ∧ s.busyFor = 0 + 1 ∧ s.port = .access (.read 0x04 4) :: [] := ⟨running_inv _ _ _, rfl, rfl, rfl⟩

/-- Asserted between commands, and inside one; released; an access while it is asserted; a release of an input that is not. -/
theorem test_witness_ResetInputHoldsTheResetValues :
    ((facing [.resetInput true]).busy = false ∧ (facing [.resetInput true]).port = .resetInput true :: []) ∧
    ((running 0x00000005 1 [.resetInput true]).busyFor ≠ 0 ∧
      (running 0x00000005 1 [.resetInput true]).port = .resetInput true :: []) ∧
    ((held [.resetInput false]).busy = false ∧ (held [.resetInput false]).resetAsserted = true ∧
      (held [.resetInput false]).port = .resetInput false :: []) ∧
    ((held [.access (.write 0x00 4 2)]).busy = false ∧ (held [.access (.write 0x00 4 2)]).resetAsserted = true ∧
      (held [.access (.write 0x00 4 2)]).port = .access (.write 0x00 4 2) :: []) ∧
    ((facing [.resetInput false]).busy = false ∧ (facing [.resetInput false]).resetAsserted = false ∧
      (facing [.resetInput false]).port = .resetInput false :: []) :=
  ⟨⟨rfl, rfl⟩, ⟨by decide, rfl⟩, ⟨rfl, rfl, rfl⟩, ⟨rfl, rfl, rfl⟩, rfl, rfl, rfl⟩

/-- A completion, and an access while the reset input is asserted. -/
theorem test_witness_EveryStepKeepsTheInvariant :
    ((running 0x00000006 0 []).Inv ∧ ∃ t, step (running 0x00000006 0 []) = .next t ∧ t.outLen = 1) ∧
    ((held [.access (.write 0x08 4 7)]).Inv ∧
      ∃ t, step (held [.access (.write 0x08 4 7)]) = .next t ∧ t.resetAsserted = true) :=
  ⟨⟨running_inv _ _ _, _, rfl, by decide +kernel⟩, held_inv _, _, rfl, rfl⟩

/-- A command that uses the Codebook, and one that does not. -/
theorem test_witness_CodebookIsBuiltOnceAndKept :
    (∃ t, exec .egcEnc (given [0]) = .next t) ∧ UsesCodebook .egcEnc (given [0]) ∧
    (∃ t, exec .dictSer (given [0]) = .next t) ∧ ¬ UsesCodebook .dictSer (given [0]) ∧
    ¬ UsesCodebook .egcDec overlong ∧ UsesCodebook .egcDec { given [0] with inLen := 65536 } :=
  ⟨⟨_, rfl⟩, show InLenFits _ by decide, ⟨_, rfl⟩, not_false, show ¬ InLenFits _ by decide, show InLenFits _ by decide⟩

theorem test_witness_CommandsNeverWriteTheOperand : ∃ t, exec (.radixConvert 10 16) (given [2, 5, 5]) = .next t := ⟨_, rfl⟩

theorem test_witness_ErrorCompletionChangesNothingElse :
    ∃ t, exec .dictSer (given []) = .next t ∧ t.err = true := ⟨_, rfl, by decide⟩

theorem test_witness_CommandsReportOnlyTheErrorsOfTheMatrix : ∃ t, exec .egcDec (given [0xFF, 0x00]) = .next t := ⟨_, rfl⟩

theorem test_witness_TooLongOperandIsErrCapacityFirst :
    overlong.inLen.toNat > 65536 ∧ Instr.egcDec ≠ .cbBuild ∧ ∀ r, Instr.egcDec ≠ .cbEncode r :=
  ⟨by decide, by decide, fun r h => nomatch h⟩

/-- The second state has the Codebook built, the first not. -/
theorem test_witness_ResultDependsOnCommandAndOperandOnly :
    (given [2]).Inv ∧ (withCodebook (given [2])).Inv ∧ operand (withCodebook (given [2])) = operand (given [2]) ∧
    (∃ t, exec .egcEnc (given [2]) = .next t) ∧ ∃ t, exec .egcEnc (withCodebook (given [2])) = .next t :=
  ⟨given_inv _ rfl,
    ⟨rfl, rfl, rfl, rfl, rfl, Nat.zero_le _, by simp [withCodebook, cbBuilt], fun _ => rfl, fun h => (nomatch h.1), fun _ => rfl,
      fun h => (nomatch h), fun h => (nomatch h), fun h => (nomatch h)⟩,
    rfl, ⟨_, rfl⟩, ⟨_, rfl⟩⟩

theorem test_witness_ResultIsReadBackFromOut :
    [0, 255].length ≤ 65536 ∧ 1 < [0, 255].length ∧ IsBytes [0, 255] := by decide

theorem test_witness_CanonIsTheOnlyNumeral :
    2 ≤ 10 ∧ 0 < 255 ∧ AllDigits 10 [2, 5, 5] ∧ [2, 5, 5].head? ≠ some 0 ∧ [2, 5, 5] ≠ [] ∧ val 10 [2, 5, 5] = 255 := by decide

theorem test_witness_LongDivisionGivesTheCanonicalNumeral :
    LegalBase 2 ∧ LegalBase 256 ∧ AllDigits 2 [0, 1, 1] ∧ AllDigits 256 [255, 0] := by decide

theorem test_witness_ZeroConvertsToOneZeroDigit : (∀ x ∈ [0, 0, 0], x = 0) ∧ ∀ x ∈ ([] : List Nat), x = 0 := by decide

theorem test_witness_ConvertThereAndBackKeepsTheValue : LegalBase 3 ∧ LegalBase 256 ∧ AllDigits 3 [0, 2, 1] := by decide

theorem test_witness_PackedBitsAreRightAligned :
    AllDigits 2 [1, 1, 1, 1, 1, 1, 1, 1, 1] ∧ [1, 1, 1, 1, 1, 1, 1, 1, 1].head? = some 1 ∧
    8 < [1, 1, 1, 1, 1, 1, 1, 1, 1].length := by decide

theorem test_witness_RadixConvertCompletes :
    InLenFits (given [255]) ∧ LegalBase 256 ∧ LegalBase 2 ∧ AllDigits 256 (operand (given [255])) ∧
    (canon 2 (val 256 (operand (given [255])))).length ≤ 65536 := by decide +kernel

theorem pow_256 (k : Nat) : 256 ^ k = 2 ^ (8 * k) := by rw [pow_mul]; norm_num

/-- The operand of 8193 bytes whose value is `2 ^ 65536`: one binary digit more than `OUT_CAP`. -/
def justTooLong : List Nat := 1 :: List.replicate 8192 0

theorem operand_justTooLong : operand (given justTooLong) = justTooLong := by
  apply operand_given
  · simp [justTooLong, -List.reduceReplicate]
  · intro x hx
    simp only [justTooLong, List.mem_cons, List.mem_replicate] at hx
    omega

/-- One operand per error, the last at the boundary of `OUT_CAP`. -/
theorem test_witness_RadixConvertErrorsInOrder :
    (InLenFits (given [2]) ∧ ¬ (LegalBase 257 ∧ LegalBase 2)) ∧ (InLenFits (given [2]) ∧ ¬ (LegalBase 2 ∧ LegalBase 1)) ∧
    (InLenFits (given [2]) ∧ LegalBase 2 ∧ ¬ AllDigits 2 (operand (given [2]))) ∧
    (InLenFits (given justTooLong) ∧ LegalBase 256 ∧ LegalBase 2 ∧ AllDigits 256 (operand (given justTooLong)) ∧
      65536 < (canon 2 (val 256 (operand (given justTooLong)))).length) := by
  refine ⟨by decide, by decide, by decide, ?_, by decide, by decide, operand_lt _, ?_⟩
  · rw [InLenFits, ← operand_length, operand_justTooLong]; simp only [justTooLong, List.length_cons, List.length_replicate]; decide
  · rw [operand_justTooLong]
    apply lt_length_canon 2 (le_refl 2)
    refine le_trans ?_ (le_val_cons 256 1 (List.replicate 8192 0) one_ne_zero)
    rw [List.length_replicate, pow_256]

theorem test_witness_PatternsHaveTheShapeOfTheRule :
    (2 ^ (2 - 1) ≤ 0 + 2 ∧ 0 + 2 < 2 ^ 2) ∧ (2 ^ (9 - 1) ≤ 255 + 2 ∧ 255 + 2 < 2 ^ 9) := by decide

theorem test_witness_PatternsArePrefixFree : cbPat 5 <+: cbPat 5 := List.prefix_refl _

/-- A pattern of the last rank, and bits of each other clause of the closed form. -/
theorem test_witness_LookupIsTheExactInverse :
    AllDigits 2 (cbPat 255) ∧ AllDigits 2 ([] : List Nat) ∧ AllDigits 2 [1, 0, 0] ∧ AllDigits 2 [0, 0] ∧
    AllDigits 2 [0, 0, 0, 0, 0, 0, 0, 1, 0, 0, 0, 0, 0, 0, 1, 0] := by decide

theorem test_witness_CbBuildCompletes : (given [1]).Inv := given_inv _ rfl

theorem test_witness_CbEncodeCompletes : (given [1]).Inv ∧ 255 < 256 := ⟨given_inv _ rfl, by decide⟩

/-- A pattern, bits that are none, cells that are no bits, and an operand that does not fit. -/
theorem test_witness_CbDecodeCompletes :
    ((given [0, 1, 0, 0]).Inv ∧ InLenFits (given [0, 1, 0, 0]) ∧ 2 < 256 ∧ operand (given [0, 1, 0, 0]) = cbPat 2) ∧
    ((given [1]).Inv ∧ InLenFits (given [1]) ∧ AllDigits 2 (operand (given [1])) ∧
      ∀ r, r < 256 → operand (given [1]) ≠ cbPat r) ∧
    ((given [1, 2]).Inv ∧ InLenFits (given [1, 2]) ∧ ¬ AllDigits 2 (operand (given [1, 2]))) ∧
    ((overlong).Inv ∧ ¬ InLenFits overlong) :=
  ⟨⟨given_inv _ rfl, by decide, by decide, by decide +kernel⟩, ⟨given_inv _ rfl, by decide, by decide, by decide +kernel⟩,
    ⟨given_inv _ rfl, by decide, by decide⟩, overlong_inv, by decide⟩

theorem test_witness_SymbolListIsOrderedByCountThenValue : IsBytes [255, 0, 255] ∧ 255 ∈ [255, 0, 255] := by decide

theorem test_witness_SymbolListIgnoresTheInputsOrder : [3, 1, 2].Perm [1, 2, 3] := by decide

theorem test_witness_FrRankCompletes : InLenFits (given []) ∧ (given []).inLen = 0 ∧ InLenFits (given [3, 1, 3]) ∧ ¬ InLenFits overlong := by decide

theorem test_witness_ShiftedDeltasAreTheRules : IsBytes [0x69, 0x73, 0x70, 0x4D] ∧ [0x69, 0x73, 0x70, 0x4D] ≠ [] := by decide

theorem test_witness_EveryDelimiterOpensOneGroup : AllDigits 3 [2, 0, 2, 2, 1] ∧ [2, 0, 2, 2, 1].head? = some 2 := by decide

theorem test_witness_DictionaryRoundTrip : IsBytes [5, 5, 5] ∧ [5, 5, 5] ≠ [] := by decide

theorem test_witness_DictSerCompletes :
    InLenFits (given [0]) ∧ (given [0]).inLen ≠ 0 ∧ (dictPayloadOf (operand (given [0]))).length ≤ 65536 := by decide +kernel

/-- `65536` symbols, 0 and 128 in turn: nine ternary digits for each. -/
def alternating : List Nat := (List.replicate 32768 [0, 128]).flatten

theorem deltas_alternating (n : Nat) : deltas 128 (List.replicate n [0, 128]).flatten = List.replicate (2 * n) 128 := by
  induction n with
  | zero => rfl
  | succ n ih =>
    rw [List.replicate_succ, List.flatten_cons, show 2 * (n + 1) = 2 * n + 1 + 1 by omega, List.replicate_succ,
      List.replicate_succ, ← ih]
    rfl

theorem renderTernary_replicate_length (n : Nat) : (renderTernary (List.replicate n 128)).length = 9 * n := by
  induction n with
  | zero => rfl
  | succ n ih =>
    rw [List.replicate_succ, renderTernary, List.flatMap_cons, List.length_append, ← renderTernary, ih]
    have : (2 :: bin 128).length = 9 := by decide +kernel
    omega

theorem minShift_of_zero (l : List Nat) : minShift (0 :: l) = 0 :: 0 :: l := by
  have h : (0 :: l).min? = some 0 := List.min?_eq_some_iff.mpr ⟨List.mem_cons_self, fun b _ => Nat.zero_le b⟩
  simp only [minShift, h, Option.getD_some, Nat.sub_zero, List.map_id']

theorem operand_alternating : operand (given alternating) = alternating := by
  apply operand_given
  · simp [alternating, -List.reduceReplicate]
  · intro x hx
    simp only [alternating, List.mem_flatten, List.mem_replicate] at hx
    obtain ⟨l, ⟨_, rfl⟩, hx⟩ := hx
    simp only [List.mem_cons, List.not_mem_nil, or_false] at hx
    omega

/-- The empty list, and a list whose payload is longer than `OUT_CAP`. -/
theorem test_witness_DictSerErrorsInOrder :
    (InLenFits (given []) ∧ (given []).inLen = 0) ∧
    (InLenFits (given alternating) ∧ 65536 < (dictPayloadOf (operand (given alternating))).length) := by
  refine ⟨by decide, ?_, ?_⟩
  · rw [InLenFits, ← operand_length, operand_alternating]; simp [alternating, -List.reduceReplicate]
  · have hd : deltas 0 alternating = 0 :: 128 :: List.replicate 65534 128 := by
      rw [alternating, List.replicate_succ, List.flatten_cons]
      exact congrArg (fun l => 0 :: 128 :: l) (deltas_alternating 32767)
    rw [operand_alternating, dictPayloadOf, hd, minShift_of_zero]
    apply lt_length_canon 256 (by decide)
    have hr : renderTernary (0 :: 0 :: 128 :: List.replicate 65534 128) =
        2 :: (0 :: 2 :: 0 :: renderTernary (List.replicate 65535 128)) := by
      rw [show 65535 = 65534 + 1 from rfl, List.replicate_succ]
      rfl
    rw [hr]
    refine le_trans ?_ (le_val_cons 3 2 _ (by decide))
    rw [pow_256, List.length_cons, List.length_cons, List.length_cons, renderTernary_replicate_length]
    exact (Nat.pow_le_pow_right (by decide) (by decide)).trans (Nat.pow_le_pow_left (by decide : 2 ≤ 3) _)

/-- The payload `3C`: two groups, each the digit 0 (V-D28). -/
theorem payloadHolds_3C : PayloadHolds [0x3C] [0] :=
  ⟨[0], [[0]], ⟨by decide +kernel, by decide, by decide⟩, by decide, by decide⟩

theorem pushDigits_length_le (base f n : Nat) (acc : List Nat) : (pushDigits base f n acc).length ≤ f + acc.length := by
  induction f generalizing n acc with
  | zero => exact (Nat.zero_add _).ge
  | succ f ih =>
    simp only [pushDigits]; split
    · omega
    · refine (ih _ _).trans ?_
      rw [List.length_cons]; omega

/-- The payload of `k` bytes whose ternary numeral is `k + 2` delimiters. -/
def delimiters (k : Nat) : List Nat := pushDigits 256 k (3 ^ (k + 2) - 1) []

theorem pushDigits_delimiters (k : Nat) (acc : List Nat) : pushDigits 3 k (3 ^ k - 1) acc = List.replicate k 2 ++ acc := by
  induction k generalizing acc with
  | zero => rfl
  | succ k ih =>
    have h : 0 < 3 ^ k := by positivity
    have h1 : 3 ^ (k + 1) - 1 = 3 * (3 ^ k - 1) + 2 := by rw [pow_succ]; omega
    rw [pushDigits, if_neg (by omega), h1, show (3 * (3 ^ k - 1) + 2) / 3 = 3 ^ k - 1 by omega,
      show (3 * (3 ^ k - 1) + 2) % 3 = 2 by omega, ih, List.replicate_succ', List.append_assoc]
    rfl

theorem payloadHolds_delimiters (k : Nat) (hk : 1 ≤ k) : ∃ sym, PayloadHolds (delimiters k) sym ∧ sym.length = k + 1 := by
  have h3 : 0 < 3 ^ (k + 1) := by positivity
  have hlt : 3 ^ (k + 2) - 1 < 256 ^ k := by
    refine (Nat.sub_lt (by positivity) one_pos).trans_le ?_
    calc 3 ^ (k + 2) ≤ 3 ^ (3 * k) := Nat.pow_le_pow_right (by decide) (by omega)
      _ = 27 ^ k := by rw [pow_mul]; norm_num
      _ ≤ 256 ^ k := Nat.pow_le_pow_left (by decide) _
  have ht : ternaryOf (delimiters k) = List.replicate (k + 2) 2 := by
    rw [ternaryOf, delimiters, pushDigits_val 256 (by decide) _ _ _ hlt, List.length_nil, pow_zero, mul_one, val_nil, add_zero,
      canon, if_neg (by rw [pow_succ]; omega),
      pushDigits_enough 3 (by decide) _ (k + 2) _ _ (lt_pow_log2 3 _ (by decide)) (Nat.sub_lt (by positivity) one_pos),
      pushDigits_delimiters, List.append_nil]
  refine ⟨_, ⟨[], List.replicate (k + 1) [], ⟨?_, List.cons_ne_nil _ _, ?_⟩, ?_, rfl⟩, by simp [symbolsOf]⟩
  · rw [ht, ← List.replicate_succ, List.flatMap_replicate, List.flatten_replicate_singleton]
  all_goals
    intro g hg
    have : g = [] := by
      rcases List.mem_cons.mp hg with h | h
      · exact h
      · exact (List.mem_replicate.mp h).2
    subst this
  · exact fun _ h => nomatch h
  · decide

theorem operand_delimiters (k : Nat) (hk : k ≤ 65536) : operand (given (delimiters k)) = delimiters k :=
  operand_given _ ((pushDigits_length_le _ _ _ _).trans (by rw [List.length_nil]; omega))
    (pushDigits_digits 256 (by decide) _ _ _ fun _ h => nomatch h)

/-- A payload of each clause; the second holds one symbol more than `OUT_CAP`. -/
theorem test_witness_DictDesCompletes :
    (InLenFits (given [0x3C]) ∧ PayloadHolds (operand (given [0x3C])) [0] ∧ [0].length ≤ 65536) ∧
    (InLenFits (given (delimiters 65536)) ∧
      ∃ sym, PayloadHolds (operand (given (delimiters 65536))) sym ∧ sym.length > 65536) := by
  refine ⟨⟨by decide, by rw [operand_given [0x3C] (by decide) (by decide)]; exact payloadHolds_3C, by decide⟩, ?_, ?_⟩
  · rw [InLenFits, ← operand_length, operand_delimiters _ le_rfl]
    exact pushDigits_length_le _ _ _ _
  · obtain ⟨sym, h, hl⟩ := payloadHolds_delimiters 65536 (by decide)
    rw [operand_delimiters _ le_rfl]
    exact ⟨sym, h, hl ▸ Nat.lt_succ_self _⟩

/-- A payload of each case: `01` starts with the digit 1; `B3 67` is the group `100000000`, 256. -/
theorem test_witness_DictDesIsCorruptInTwoCases :
    (InLenFits (given [0x01]) ∧ (ternaryOf (operand (given [0x01]))).head? ≠ some 2) ∧
    (InLenFits (given [0xB3, 0x67]) ∧
      ∃ groups, GroupsOf (ternaryOf (operand (given [0xB3, 0x67]))) groups ∧ ∃ g ∈ groups, val 2 g > 255) :=
  ⟨⟨by decide, by decide +kernel⟩, by decide, [[1, 0, 0, 0, 0, 0, 0, 0, 0]], ⟨by decide +kernel, by decide, by decide⟩,
    _, List.mem_singleton_self _, by decide⟩

theorem test_witness_EgcEncCompletes :
    (given [0]).Inv ∧ InLenFits (given [0]) ∧ (given [0]).inLen ≠ 0 ∧
    (dictPayloadOf (rankOrder (operand (given [0])))).length ≤ 255 ∧ (frameOf (operand (given [0]))).length ≤ 65536 :=
  ⟨given_inv _ rfl, by decide, by decide, by decide +kernel, by decide +kernel⟩

/-- Sixteen byte values, sixteen apart. -/
abbrev tier (t : Nat) : List Nat := (List.range 16).map fun k => 16 * k + t

/-- Every byte value `v`, `16 - v mod 16` times: the symbol list climbs by 16, sixteen times over. -/
def sixteenTiers : List Nat := (List.range 16).flatMap fun t => (List.replicate (16 - t) (tier t)).flatten

theorem count_tier (v t : Nat) (hv : v < 256) (ht : t < 16) : (tier t).count v = if v % 16 = t then 1 else 0 := by
  split
  · next h =>
    refine List.count_eq_one_of_mem (List.nodup_range.map fun a b h => ?_)
      (List.mem_map.mpr ⟨v / 16, List.mem_range.mpr (by omega), by omega⟩)
    omega
  · next h =>
    refine List.count_eq_zero.mpr fun hm => ?_
    obtain ⟨k, _, rfl⟩ := List.mem_map.mp hm
    omega

theorem freqTable_sixteenTiers : freqTable sixteenTiers = (List.range 256).map fun v => (v, 16 - v % 16) := by
  apply List.map_congr_left
  intro v hv
  have hv : v < 256 := List.mem_range.mp hv
  rw [freq, sixteenTiers, List.count_flatMap]
  have h : ∀ t ∈ List.range 16, (List.count v ∘ fun t => (List.replicate (16 - t) (tier t)).flatten) t =
      (16 - t) * if v % 16 = t then 1 else 0 := by
    intro t ht
    simp only [Function.comp, List.count_flatten, List.map_replicate, List.sum_replicate,
      count_tier v t hv (List.mem_range.mp ht), smul_eq_mul]
  rw [List.map_congr_left h]
  have hm : v % 16 < 16 := by omega
  generalize v % 16 = m at *
  interval_cases m <;> rfl

theorem rankOrder_sixteenTiers : rankOrder sixteenTiers = (List.range 16).flatMap tier := by
  rw [rankOrder, freqTable_sixteenTiers]; decide +kernel

/-- The steps from symbol to symbol: 0, then fifteen times 16, and 17 between two tiers. -/
abbrev tierSteps : List Nat := (List.range 16).flatMap fun t => (if t = 0 then 0 else 17) :: List.replicate 15 16

theorem deltas_sixteenTiers : deltas 0 ((List.range 16).flatMap tier) = 0 :: tierSteps.tail := by decide +kernel

theorem dictPayload_sixteenTiers : 255 < (dictPayloadOf (rankOrder sixteenTiers)).length := by
  rw [rankOrder_sixteenTiers, dictPayloadOf, deltas_sixteenTiers, minShift_of_zero]
  apply lt_length_canon 256 (by decide)
  decide +kernel

/-- Every byte value 256 times. -/
def uniform : List Nat := (List.replicate 256 (List.range 256)).flatten

theorem rankOrder_uniform : rankOrder uniform = List.range 256 := by
  have h : freqTable uniform = (List.range 256).map fun v => (v, 256) := by
    apply List.map_congr_left
    intro v hv
    have : (List.range 256).count v = 1 := List.count_eq_one_of_mem List.nodup_range hv
    rw [freq, uniform, List.count_flatten, List.map_replicate, this, List.sum_replicate]
    rfl
  rw [rankOrder, h]
  decide +kernel

theorem operand_sixteenTiers : operand (given sixteenTiers) = sixteenTiers := by
  apply operand_given <;> decide +kernel

theorem uniform_length : uniform.length = 65536 := by
  rw [uniform, List.length_flatten, List.map_replicate, List.sum_replicate, List.length_range]; rfl

theorem operand_uniform : operand (given uniform) = uniform := by
  apply operand_given
  · exact uniform_length.le.trans (by decide)
  · intro x hx
    obtain ⟨l, hl, hx⟩ := List.mem_flatten.mp hx
    rw [(List.mem_replicate.mp hl).2] at hx
    exact List.mem_range.mp hx

theorem rankOf_range (v : Nat) (hv : v ∈ List.range 256) : rankOf (List.range 256) v = v := by
  have h := List.idxOf_lt_length_of_mem hv
  have h2 := List.getElem_idxOf h
  rwa [List.getElem_range] at h2

/-- The bits of every byte value once, in the order of the symbol list. -/
def block : List Nat := (List.range 256).flatMap cbPat

theorem block_shape : ∃ t, block = 1 :: t ∧ t.length = 3107 :=
  ⟨block.tail, by rfl, by decide +kernel⟩

theorem bitsOf_uniform : bitsOf uniform = (List.replicate 256 block).flatten := by
  have hb : ∀ n, (List.replicate n (List.range 256)).flatten.flatMap (fun v => cbPat (rankOf (List.range 256) v)) =
      (List.replicate n block).flatten := by
    intro n
    induction n with
    | zero => rfl
    | succ n ih =>
      rw [List.replicate_succ, List.replicate_succ, List.flatten_cons, List.flatten_cons, List.flatMap_append, ih, block,
        List.flatMap_def, List.map_congr_left fun v hv => by rw [rankOf_range v hv], ← List.flatMap_def]
  rw [bitsOf, rankOrder_uniform, uniform, hb]

/-- A sequence that starts with 1, repeated. -/
theorem le_val_replicate (t : List Nat) (n : Nat) :
    2 ^ (n * (t.length + 1)) ≤ val 2 (List.replicate (n + 1) (1 :: t)).flatten := by
  rw [List.replicate_succ, List.flatten_cons, List.cons_append]
  refine le_trans (Nat.pow_le_pow_right (by decide) ?_) (le_val_cons 2 1 _ one_ne_zero)
  rw [List.length_append, List.length_flatten, List.map_replicate, List.sum_replicate, List.length_cons, smul_eq_mul]
  omega

theorem frameOf_uniform : 65536 < (frameOf uniform).length := by
  obtain ⟨t, hb, ht⟩ := block_shape
  have h : 65536 < (canon 256 (val 2 (bitsOf uniform))).length := by
    apply lt_length_canon 256 (by decide)
    rw [bitsOf_uniform, hb, pow_256]
    refine le_trans (Nat.pow_le_pow_right (by decide) ?_) (le_val_replicate t 255)
    omega
  rw [frameOf, List.length_append, List.length_append]
  omega

theorem deltas_range : deltas 0 (List.range 256) = 0 :: List.replicate 255 1 := by decide +kernel

theorem dictPayload_uniform : (dictPayloadOf (rankOrder uniform)).length ≤ 255 := by
  rw [rankOrder_uniform, dictPayloadOf, deltas_range, minShift_of_zero]; decide +kernel

/-- The empty input, a dictionary of more than 255 bytes, and a frame longer than `OUT_CAP`. -/
theorem test_witness_EgcEncErrorsInOrder :
    ((given []).Inv ∧ InLenFits (given []) ∧ (given []).inLen = 0) ∧
    ((given sixteenTiers).Inv ∧ InLenFits (given sixteenTiers) ∧
      255 < (dictPayloadOf (rankOrder (operand (given sixteenTiers)))).length) ∧
    ((given uniform).Inv ∧ InLenFits (given uniform) ∧
      (dictPayloadOf (rankOrder (operand (given uniform)))).length ≤ 255 ∧
      65536 < (frameOf (operand (given uniform))).length) := by
  refine ⟨⟨given_inv _ rfl, by decide, rfl⟩, ⟨given_inv _ ?_, ?_, ?_⟩, given_inv _ ?_, ?_, ?_, ?_⟩
  · exact Memory.ofSeq_below _ _ (by decide +kernel)
  · rw [InLenFits, ← operand_length, operand_sixteenTiers]; decide +kernel
  · rw [operand_sixteenTiers]; exact dictPayload_sixteenTiers
  · exact Memory.ofSeq_below _ _ uniform_length.le
  · rw [InLenFits, ← operand_length, operand_uniform]; exact uniform_length.le
  · rw [operand_uniform]; exact dictPayload_uniform
  · rw [operand_uniform]; exact frameOf_uniform

/-- V-E6a. -/
theorem test_witness_EncodedFrameHasItsShape : IsBytes [0] ∧ egcEncode cbBuilt [0] = .ok [0xFF, 0x00, 0x02, 0x3C] :=
  ⟨by decide, by decide +kernel⟩

/-- V-E6a: one pattern of rank 0, and its payload. -/
theorem frameHolds_shortest : FrameHolds [0xFF, 0x00, 0x02, 0x3C] [0] :=
  ⟨0xFF, 0x00, [0x02], [0x3C], [0], [0], rfl, rfl, payloadHolds_3C, by decide +kernel, by decide, rfl⟩

/-- The value of the bits `10`, `k` times. -/
def tens : Nat → Nat
  | 0 => 0
  | k + 1 => 4 * tens k + 2

theorem tens_lt (k : Nat) : tens k < 2 ^ (2 * k) := by
  induction k with
  | zero => decide
  | succ k ih =>
    rw [tens, show 2 * (k + 1) = 2 * k + 2 by omega, pow_add]; omega

theorem pushDigits_tens (k : Nat) (acc : List Nat) :
    pushDigits 2 (2 * k) (tens k) acc = (List.replicate k 0).flatMap cbPat ++ acc := by
  induction k generalizing acc with
  | zero => rfl
  | succ k ih =>
    rw [show 2 * (k + 1) = 2 * k + 1 + 1 by omega, pushDigits, tens, if_neg (by omega), pushDigits, if_neg (by omega),
      show (4 * tens k + 2) / 2 / 2 = tens k by omega, show (4 * tens k + 2) / 2 % 2 = 1 by omega,
      show (4 * tens k + 2) % 2 = 0 by omega, ih, List.replicate_succ', List.flatMap_append, List.append_assoc]
    rfl

theorem val_tens (j : Nat) : val 256 (2 :: List.replicate j 170) = tens (4 * j + 1) := by
  induction j with
  | zero => rfl
  | succ j ih =>
    rw [List.replicate_succ', ← List.cons_append, val_append, ih, show 4 * (j + 1) + 1 = 4 * j + 1 + 1 + 1 + 1 + 1 by omega]
    simp only [tens, List.length_singleton, pow_one, val_cons, List.length_nil, pow_zero, mul_one, val_nil]
    omega

/-- A frame of one symbol, `4 j + 1` times. -/
def oneSymbol (j : Nat) : List Nat := 0xFF :: 0x00 :: ((2 :: List.replicate j 170) ++ [0x3C])

theorem frameHolds_oneSymbol (j : Nat) : FrameHolds (oneSymbol j) (List.replicate (4 * j + 1) 0) := by
  refine ⟨0xFF, 0x00, 2 :: List.replicate j 170, [0x3C], [0], List.replicate (4 * j + 1) 0, rfl, rfl, payloadHolds_3C, ?_, ?_, ?_⟩
  · rw [val_tens, canon, if_neg (by rw [tens]; omega),
      pushDigits_enough 2 le_rfl _ _ _ _ (lt_pow_log2 2 _ le_rfl) (tens_lt _), pushDigits_tens, List.append_nil]
    rfl
  · intro r hr
    rw [(List.mem_replicate.mp hr).2]; decide
  · rw [List.map_replicate]; rfl

theorem oneSymbol_length (j : Nat) : (oneSymbol j).length = j + 4 := by simp [oneSymbol]

theorem operand_oneSymbol (j : Nat) (hj : j ≤ 65532) : operand (given (oneSymbol j)) = oneSymbol j := by
  apply operand_given
  · rw [oneSymbol_length]; omega
  · intro x hx
    simp only [oneSymbol, List.mem_cons, List.mem_append, List.mem_replicate, List.not_mem_nil, or_false] at hx
    omega

/-- A frame of each clause; the second holds one byte more than `OUT_CAP`. -/
theorem test_witness_EgcDecCompletes :
    ((given [0xFF, 0x00, 0x02, 0x3C]).Inv ∧ InLenFits (given [0xFF, 0x00, 0x02, 0x3C]) ∧
      FrameHolds (operand (given [0xFF, 0x00, 0x02, 0x3C])) [0] ∧ [0].length ≤ 65536) ∧
    ((given (oneSymbol 16384)).Inv ∧ InLenFits (given (oneSymbol 16384)) ∧
      ∃ out, FrameHolds (operand (given (oneSymbol 16384))) out ∧ out.length > 65536) := by
  refine ⟨⟨given_inv _ rfl, by decide,
    by rw [operand_given [0xFF, 0x00, 0x02, 0x3C] (by decide) (by decide)]; exact frameHolds_shortest, by decide⟩,
    given_inv _ (Memory.ofSeq_below _ _ ?_), ?_, ?_⟩
  · rw [oneSymbol_length]; decide
  · rw [InLenFits, ← operand_length, operand_oneSymbol _ (by decide), oneSymbol_length]; decide
  · rw [operand_oneSymbol _ (by decide)]
    exact ⟨_, frameHolds_oneSymbol 16384, by rw [List.length_replicate]; decide⟩

/-- A frame of two bytes has no room for its dictionary payload. -/
theorem test_witness_EgcDecOfAnyOtherFrameIsCorrupt :
    (given [0xFF, 0x00]).Inv ∧ InLenFits (given [0xFF, 0x00]) ∧ ¬ ∃ out, FrameHolds (operand (given [0xFF, 0x00])) out := by
  refine ⟨given_inv _ rfl, by decide, ?_⟩
  rw [operand_given [0xFF, 0x00] (by decide) (by decide)]
  rintro ⟨out, lenNeg, lz, bits, dict, sym, ranks, h1, h2, _⟩
  injection h1 with h1 h3
  injection h3 with _ h3
  subst h1
  have hd : dict = [] := (List.append_eq_nil_iff.mp h3.symm).2
  rw [hd] at h2
  exact absurd h2 (by decide)

theorem test_witness_FrameRoundTrip : IsBytes [255] ∧ egcEncode cbBuilt [255] = .ok [0xFD, 0x00, 0x02, 0x02, 0x40, 0xA8] :=
  ⟨by decide, by decide +kernel⟩

theorem test_witness_DecodeAfterEncodeGivesTheInput :
    (given [0]).Inv ∧ (given [0xFF, 0x00, 0x02, 0x3C]).Inv ∧
    ∃ t, exec .egcEnc (given [0]) = .next t ∧ t.err = false ∧ operand (given [0xFF, 0x00, 0x02, 0x3C]) = result t :=
  ⟨given_inv _ rfl, given_inv _ rfl, _, rfl, by decide +kernel, by decide +kernel⟩

/-- The last cell of `IN`. -/
theorem test_witness_InWindowWriteStoresOneCell :
    (facing [.access (.write (0x10000 + 65535) 1 255)]).busy = false ∧
    (facing [.access (.write (0x10000 + 65535) 1 255)]).resetAsserted = false ∧ 65535 < 65536 ∧
    (facing [.access (.write (0x10000 + 65535) 1 255)]).port = .access (.write (0x10000 + 65535) 1 255) :: [] :=
  ⟨rfl, rfl, by decide, rfl⟩

theorem test_witness_InLenWriteStoresAnyValue :
    (facing [.access (.write 0x08 4 0xFFFFFFFF)]).busy = false ∧ (facing [.access (.write 0x08 4 0xFFFFFFFF)]).resetAsserted = false ∧
    (facing [.access (.write 0x08 4 0xFFFFFFFF)]).port = .access (.write 0x08 4 (0xFFFFFFFF : Word).toNat) :: [] :=
  ⟨rfl, rfl, rfl⟩

/-- The offsets and widths next to the legal ones. -/
theorem test_witness_WrongAccessGetsABusError :
    (¬ LegalAccess 0x00 1 ∧ ¬ LegalAccess 0x02 4 ∧ ¬ LegalAccess 0x20 4 ∧ ¬ LegalAccess 0xFFFF 1 ∧ ¬ LegalAccess 0x10000 4 ∧
      ¬ LegalAccess 0x30000 1) ∧
    (facing [.access (.read 0x20 4)]).busy = false ∧
    (facing [.access (.read 0x20 4)]).port = .access (.read 0x20 4) :: [] ∧
    (facing [.access (.write 0x30000 1 7)]).port = .access (.write 0x30000 1 7) :: [] := by
  refine ⟨?_, rfl, rfl, rfl⟩
  simp [LegalAccess]

/-- A read of the last cell of `OUT` and an ignored write of it on the port; the ignored offsets at their ends. -/
theorem test_witness_ReadsAndIgnoredWritesChangeNothing :
    ((facing [.access (.read 0x2FFFF 1)]).busy = false ∧
      (facing [.access (.read 0x2FFFF 1)]).port = .access (.read 0x2FFFF 1) :: []) ∧
    ((facing [.access (.write 0x2FFFF 1 7)]).busy = false ∧
      (facing [.access (.write 0x2FFFF 1 7)]).port = .access (.write 0x2FFFF 1 7) :: []) ∧
    (LegalAccess 0x04 4 ∧ 0x04 ∈ [0x04, 0x0C, 0x10, 0x14, 0x18, 0x1C]) ∧ (LegalAccess 0x1C 4 ∧ 0x1C ∈ [0x04, 0x0C, 0x10, 0x14, 0x18, 0x1C]) ∧ (LegalAccess 0x20000 1 ∧ 0x20000 ≤ 0x20000) ∧
    LegalAccess 0x2FFFF 1 ∧ 0x04 ≠ 0x00 := ⟨⟨rfl, rfl⟩, ⟨rfl, rfl⟩, by simp [LegalAccess]⟩

theorem test_witness_LoadMakesTheOperand :
    let s := facing (hostLoad [255, 0] ++ [.resetInput true])
    s.busy = false ∧ s.resetAsserted = false ∧ [(255 : Byte), 0].length ≤ 65536 ∧
    s.port = hostLoad [255, 0] ++ [.resetInput true] := ⟨rfl, rfl, by decide, rfl⟩

end Sys2Proof.Tests
end

section
/-! PROOFS. The canonical numeral (R12). The library's digit lists are least significant digit first, those of R12 most
significant first: `val` and `canon` are the library's `ofDigits` and `digits` read backwards, and what R12 says of a canonical
numeral follows from what the library says of `digits`. -/

namespace Sys2Proof.Proofs

open Sys2Proof Sys2Proof.Machine

theorem val_eq_ofDigits (base : Nat) (s : List Nat) : val base s = Nat.ofDigits base s.reverse := by
  simp [val, Nat.ofDigits_eq_foldr, add_comm, mul_comm]

/-- With enough fuel, `pushDigits` pushes exactly the digits of `n`. -/
theorem pushDigits_eq_digits (base : Nat) (hb : 2 ≤ base) (f n : Nat) (acc : List Nat) (hn : n < base ^ f) :
    pushDigits base f n acc = (Nat.digits base n).reverse ++ acc := by
  induction f generalizing n acc with
  | zero =>
    have : n = 0 := by simpa using hn
    simp [this, pushDigits]
  | succ f ih =>
    by_cases h0 : n = 0
    · simp [h0, pushDigits]
    · have hq : n / base < base ^ f := by
        rwa [Nat.div_lt_iff_lt_mul (by omega), ← pow_succ]
      rw [pushDigits, if_neg h0, ih _ _ hq, Nat.digits_eq_cons_digits_div hb h0]
      simp

@[simp] theorem canon_zero (base : Nat) : canon base 0 = [0] := rfl

/-- A numeral of a positive number is the library's digits, most significant first. -/
theorem canon_of_pos (base n : Nat) (hb : 2 ≤ base) (hn : 0 < n) : canon base n = (Nat.digits base n).reverse := by
  rw [canon, if_neg hn.ne', pushDigits_eq_digits base hb _ _ _ (lt_pow_log2 base n hb), List.append_nil]

theorem val_canon (base n : Nat) (hb : 2 ≤ base) : val base (canon base n) = n := by
  rcases Nat.eq_zero_or_pos n with rfl | hn
  · simp [val_cons]
  · rw [canon_of_pos base n hb hn, val_eq_ofDigits, List.reverse_reverse, Nat.ofDigits_digits]

theorem canon_digits (base n : Nat) (hb : 2 ≤ base) : AllDigits base (canon base n) := by
  intro x hx
  rcases Nat.eq_zero_or_pos n with rfl | hn
  · rw [canon_zero, List.mem_singleton] at hx
    omega
  · rw [canon_of_pos base n hb hn, List.mem_reverse] at hx
    exact Nat.digits_lt_base hb hx

theorem canon_head_ne_zero (base n : Nat) (hb : 2 ≤ base) (hn : 0 < n) : (canon base n).head? ≠ some 0 := by
  have hne : Nat.digits base n ≠ [] := Nat.digits_ne_nil_iff_ne_zero.mpr hn.ne'
  have hlast := Nat.getLast_digit_ne_zero base hn.ne'
  rw [canon_of_pos base n hb hn, List.head?_reverse, List.getLast?_eq_some_getLast hne]
  simpa using hlast

/-- A sequence that begins with a nonzero digit has a positive value. -/
theorem val_pos_of_head (base : Nat) (hb : 2 ≤ base) (t : List Nat) (hhead : t.head? ≠ some 0) (hne : t ≠ []) :
    0 < val base t := by
  cases t with
  | nil => exact absurd rfl hne
  | cons d s =>
    have hd : d ≠ 0 := by simpa using hhead
    exact lt_of_lt_of_le (by positivity) (le_val_cons base d s hd)

/-- A digit sequence without a leading zero is the canonical numeral of its own value: numerals are unique. -/
theorem canon_val (base : Nat) (hb : 2 ≤ base) (t : List Nat) (ht : AllDigits base t) (hhead : t.head? ≠ some 0)
    (hne : t ≠ []) : canon base (val base t) = t := by
  have hdigits : Nat.digits base (Nat.ofDigits base t.reverse) = t.reverse := by
    refine Nat.digits_ofDigits base hb _ (fun x hx => ht x (List.mem_reverse.mp hx)) fun hr => ?_
    rw [List.head?_eq_some_head hne] at hhead
    simpa using hhead
  rw [canon_of_pos base _ hb (val_pos_of_head base hb t hhead hne), val_eq_ofDigits, hdigits, List.reverse_reverse]

/-- Settles O23: `canon` is the library's `digits` read backwards, and a digit sequence without a leading zero is `canon` of its
value. -/
theorem canonIsTheOnlyNumeral : Obligations.CanonIsTheOnlyNumeral := by
  unfold Obligations.CanonIsTheOnlyNumeral
  intro b n hb
  refine ⟨val_canon b n hb, canon_digits b n hb, canon_head_ne_zero b n hb, ?_, ?_⟩
  · rintro rfl
    exact canon_zero b
  · rintro t ht hhead hne rfl
    exact (canon_val b hb t ht hhead hne).symm

end Sys2Proof.Proofs
end

section
/-! PROOFS. The conversion in its closed form (R69, R70), and the bit streams packed in bytes (R43). A sweep from remainder 0 divides
the value by the target base, so the sweeps push the digits that `canon` pushes; a packed stream is then the base-256 digits of
the number whose base-2 digits are its bits. -/

namespace Sys2Proof.Proofs

-- One theorem at a time: elaborating many at once would take a thread's stack for each.
set_option Elab.async false

open Sys2Proof Sys2Proof.Machine

/-! ### Long division -/

/-- A sweep that starts with remainder 0 is one division of the value by the target base. -/
theorem sweep_zero_div_mod (a b : Nat) (hb : 0 < b) (w : List Nat) :
    val a (sweep a b 0 w).1 = val a w / b ∧ (sweep a b 0 w).2 = val a w % b := by
  obtain ⟨hdiv, hlt⟩ := sweep_spec a b hb 0 w
  rw [zero_mul, zero_add] at hdiv
  obtain ⟨hquot, hrem⟩ : val a w / b = val a (sweep a b 0 w).1 ∧ val a w % b = (sweep a b 0 w).2 :=
    (Nat.div_mod_unique hb).mpr ⟨by linarith only [hdiv], hlt hb⟩
  exact ⟨hquot.symm, hrem.symm⟩

theorem all_zero_iff_val_eq_zero (a : Nat) (ha : 0 < a) (w : List Nat) : w.all (· == 0) = true ↔ val a w = 0 := by
  simp [val_eq_zero_iff a ha]

/-- The sweeps push the digits of the value, whatever the fuel. -/
theorem sweeps_eq_pushDigits (a b : Nat) (ha : 0 < a) (hb : 0 < b) (fuel : Nat) (w stack : List Nat) :
    sweeps a b fuel w stack = pushDigits b fuel (val a w) stack := by
  induction fuel generalizing w stack with
  | zero => rfl
  | succ fuel ih =>
    obtain ⟨hquot, hrem⟩ := sweep_zero_div_mod a b hb w
    simp only [sweeps, pushDigits, all_zero_iff_val_eq_zero a ha, ih, hquot, hrem]

/-- Eight sweeps a digit are enough for legal bases: a digit below 256 has at most eight digits of a base of at least 2. -/
theorem val_lt_pow_eight_mul_length (a b : Nat) (ha : a ≤ 256) (hb : 2 ≤ b) (d : List Nat) (hd : AllDigits a d) :
    val a d < b ^ (8 * d.length) :=
  calc val a d < a ^ d.length := val_lt a d hd
    _ ≤ (2 ^ 8) ^ d.length := Nat.pow_le_pow_left ha _
    _ ≤ (b ^ 8) ^ d.length := Nat.pow_le_pow_left (Nat.pow_le_pow_left hb 8) _
    _ = b ^ (8 * d.length) := (pow_mul b 8 d.length).symm

/-- R69, R70: repeated long division gives the canonical numeral of the operand's value. -/
theorem convert_eq_canon (d : List Nat) (a b : Nat) (ha : LegalBase a) (hb : LegalBase b) (hd : AllDigits a d) :
    convert d a b = canon b (val a d) := by
  obtain ⟨ha2, ha256⟩ := ha
  obtain ⟨hb2, -⟩ := hb
  unfold convert
  split
  · next hzero => rw [(all_zero_iff_val_eq_zero a (by omega) d).mp hzero, canon_zero]
  · next hnonzero =>
    have hval : val a d ≠ 0 := fun h => hnonzero ((all_zero_iff_val_eq_zero a (by omega) d).mpr h)
    rw [sweeps_eq_pushDigits a b (by omega) (by omega),
      pushDigits_eq_digits b hb2 _ _ _ (val_lt_pow_eight_mul_length a b ha256 hb2 d hd),
      canon_of_pos b _ hb2 (Nat.pos_of_ne_zero hval), List.append_nil]

/-! ### Packed bits -/

theorem canon_length_le_iff (base n k : Nat) (hb : 2 ≤ base) (hn : 0 < n) : (canon base n).length ≤ k ↔ n < base ^ k := by
  rw [canon_of_pos base n hb hn, List.length_reverse, Nat.digits_length_le_iff hb]

/-- The digit `i` places before the last, 0 before the first. -/
theorem canon_getD_reverse (base n i : Nat) (hb : 2 ≤ base) (hn : 0 < n) :
    (canon base n).reverse.getD i 0 = n / base ^ i % base := by
  rw [canon_of_pos base n hb hn, List.reverse_reverse, Nat.getD_digits n i hb]

/-- A number of `l` bits has `ceil(l/8)` bytes. -/
theorem canon_256_length (n l : Nat) (hlow : 2 ^ l ≤ n) (hhigh : n < 2 ^ (l + 1)) : (canon 256 n).length = (l + 8) / 8 := by
  have hn : 0 < n := lt_of_lt_of_le (by positivity) hlow
  have hpow (k : Nat) : 256 ^ k = 2 ^ (8 * k) := (pow_mul 2 8 k).symm
  apply le_antisymm
  · rw [canon_length_le_iff 256 n _ (by omega) hn, hpow]
    exact hhigh.trans_le (Nat.pow_le_pow_right (by omega) (by omega))
  · have hmore : l / 8 < (canon 256 n).length := by
      apply lt_length_canon 256 (by omega)
      rw [hpow]
      exact (Nat.pow_le_pow_right (by omega) (by omega)).trans hlow
    omega

/-- Bit `k` of a number is bit `k mod 8` of its byte `k div 8`. -/
theorem bit_eq_bit_of_byte (n k : Nat) : n / 2 ^ k % 2 = n / 256 ^ (k / 8) % 256 / 2 ^ (k % 8) % 2 := by
  have hpow : 256 ^ (k / 8) = 2 ^ (8 * (k / 8)) := (pow_mul 2 8 _).symm
  have hmod : n / 256 ^ (k / 8) % 256 = n / 2 ^ (8 * (k / 8)) % 2 ^ 8 := by rw [hpow]; rfl
  have hin : decide (k % 8 < 8) = true := decide_eq_true (by omega)
  rw [hmod, ← Nat.toNat_testBit, ← Nat.toNat_testBit, Nat.testBit_mod_two_pow, hin, Bool.true_and,
    Nat.testBit_div_two_pow, Nat.mod_add_div]

/-- Settles O27: the bits are the base-2 digits of their value and the packed bytes its base-256 digits; bit `k` of the value lies
in byte `k div 8`. -/
theorem packedBitsAreRightAligned : Obligations.PackedBitsAreRightAligned := by
  unfold Obligations.PackedBitsAreRightAligned
  intro bits hbits hhead
  rw [convert_eq_canon bits 2 256 ⟨by omega, by omega⟩ ⟨by omega, by omega⟩ hbits]
  obtain ⟨tail, rfl⟩ : ∃ tail, bits = 1 :: tail := List.head?_eq_some_iff.mp hhead
  have hlow : 2 ^ tail.length ≤ val 2 (1 :: tail) := le_val_cons 2 1 tail one_ne_zero
  have hpos : 0 < val 2 (1 :: tail) := lt_of_lt_of_le (by positivity) hlow
  refine ⟨canon_256_length _ _ hlow (val_lt 2 _ hbits), fun k _ => ?_⟩
  have hcanon : canon 2 (val 2 (1 :: tail)) = 1 :: tail := canon_val 2 le_rfl _ hbits (by simp) (by simp)
  calc (1 :: tail).reverse.getD k 0 = (canon 2 (val 2 (1 :: tail))).reverse.getD k 0 := by rw [hcanon]
    _ = val 2 (1 :: tail) / 2 ^ k % 2 := canon_getD_reverse 2 _ k le_rfl hpos
    _ = val 2 (1 :: tail) / 256 ^ (k / 8) % 256 / 2 ^ (k % 8) % 2 := bit_eq_bit_of_byte _ k
    _ = _ := by rw [canon_getD_reverse 256 _ _ (by omega) hpos]

end Sys2Proof.Proofs
end

section
/-! PROOFS. The host's port (R36 to R40, R45 to R47): what the address map answers, once; which targets ignore a write; and the
step that serves an access of an idle block. -/

namespace Sys2Proof.Proofs

-- One theorem at a time: elaborating many at once would take a thread's stack for each.
set_option Elab.async false

open Sys2Proof Sys2Proof.Machine

/-! ### The address map -/

/-- The registers stand at aligned offsets below 0x20 (R36, R37). -/
theorem registerAt_bounds {off : Nat} {r : Register} (h : registerAt off = some r) : off < 0x20 ∧ off % 4 = 0 := by
  unfold registerAt at h
  split at h <;> cases h <;> decide

/-- Every aligned offset below 0x20 has a register (R37). -/
theorem exists_registerAt {off : Nat} (hoff : off < 0x20) (haligned : off % 4 = 0) : ∃ r, registerAt off = some r := by
  have hall : ∀ off < 0x20, off % 4 = 0 → (registerAt off).isSome = true := by decide
  exact Option.isSome_iff_exists.mp (hall off hoff haligned)

theorem registerAt_eq_cmd {off : Nat} (h : registerAt off = some .cmd) : off = 0 := by
  unfold registerAt at h
  split at h <;> cases h
  rfl

theorem targetOf_register {off : Nat} {r : Register} (h : registerAt off = some r) : targetOf off 4 = .register r := by
  rw [targetOf, if_pos (registerAt_bounds h).1, h]
  rfl

theorem targetOf_inWindow {i : Nat} (hi : i < 65536) : targetOf (0x10000 + i) 1 = .inWindow i := by
  rw [targetOf, Config.inCap, Config.outCap, if_neg (by omega), if_neg (by omega), if_pos (by omega),
    if_pos rfl, Nat.add_sub_cancel_left]

theorem targetOf_outWindow {i : Nat} (hi : i < 65536) : targetOf (0x20000 + i) 1 = .outWindow i := by
  rw [targetOf, Config.inCap, Config.outCap, if_neg (by omega), if_neg (by omega), if_neg (by omega),
    if_pos (by omega), if_pos rfl, Nat.add_sub_cancel_left]

theorem targetOf_of_not_legal {off width : Nat} (h : ¬ LegalAccess off width) : targetOf off width = .unmapped := by
  unfold LegalAccess at h
  unfold targetOf Config.inCap Config.outCap
  split
  · split
    · next r hr =>
      obtain ⟨hoff, haligned⟩ := registerAt_bounds hr
      exact if_neg (by omega)
    · rfl
  · split
    · rfl
    · split
      · exact if_neg (by omega)
      · split
        · exact if_neg (by omega)
        · rfl

/-- A legal access reaches a register, a cell of `IN` or a cell of `OUT`. -/
theorem legalAccess_cases {off width : Nat} (h : LegalAccess off width) :
    (∃ r, registerAt off = some r ∧ targetOf off width = .register r) ∨
    (∃ i < 65536, off = 0x10000 + i ∧ targetOf off width = .inWindow i) ∨
    (∃ i < 65536, off = 0x20000 + i ∧ targetOf off width = .outWindow i) := by
  rcases h with ⟨hoff, haligned, rfl⟩ | ⟨hlow, hhigh, rfl⟩
  · obtain ⟨r, hr⟩ := exists_registerAt hoff haligned
    exact .inl ⟨r, hr, targetOf_register hr⟩
  · rcases lt_or_ge off 0x20000 with hin | hout
    · obtain ⟨i, rfl⟩ := Nat.exists_eq_add_of_le hlow
      exact .inr (.inl ⟨i, by omega, rfl, targetOf_inWindow (by omega)⟩)
    · obtain ⟨i, rfl⟩ := Nat.exists_eq_add_of_le hout
      exact .inr (.inr ⟨i, by omega, rfl, targetOf_outWindow (by omega)⟩)

/-! ### Answers and effects -/

theorem respondTo_read_inWindow (s : State) {i : Nat} (hi : i < 65536) :
    respondTo s (.read (0x10000 + i) 1) = .byte (inCell s i) := by
  rw [respondTo, targetOf_inWindow hi]

/-- Every legal write is acknowledged (R46; for the OUT window log 17). -/
theorem respondTo_write_of_legal (s : State) {off width : Nat} (value : Nat) (h : LegalAccess off width) :
    respondTo s (.write off width value) = .ack := by
  rcases legalAccess_cases h with ⟨r, -, ht⟩ | ⟨i, -, -, ht⟩ | ⟨i, -, -, ht⟩ <;> rw [respondTo, ht]

theorem respondTo_read_of_not_legal (s : State) {off width : Nat} (h : ¬ LegalAccess off width) :
    respondTo s (.read off width) = .busError := by
  rw [respondTo, targetOf_of_not_legal h]

theorem respondTo_write_of_not_legal (s : State) {off width : Nat} (value : Nat) (h : ¬ LegalAccess off width) :
    respondTo s (.write off width value) = .busError := by
  rw [respondTo, targetOf_of_not_legal h]

/-- All that a write can do (R19, R22, R39, R46): start a command, store in `IN_LEN` or in a cell of `IN`, or nothing. -/
theorem effectOf_write_cases (s : State) (off width value : Nat) :
    (targetOf off width = .register .cmd ∧
      effectOf s (.write off width value) = startCommand (BitVec.ofNat 32 value) s) ∨
    (targetOf off width = .register .inLen ∧
      effectOf s (.write off width value) = { s with inLen := BitVec.ofNat 32 value }) ∨
    (∃ i, targetOf off width = .inWindow i ∧
      effectOf s (.write off width value) = { s with inBuf := s.inBuf.write i (BitVec.ofNat 8 value) }) ∨
    effectOf s (.write off width value) = s := by
  rcases Bool.eq_false_or_eq_true s.resetAsserted with hheld | hreleased
  · exact .inr (.inr (.inr (effectOf_write_of_asserted off width value s hheld)))
  · rw [effectOf_write_of_released off width value s hreleased]
    cases targetOf off width with
    | register r =>
      cases r with
      | cmd => exact .inl ⟨rfl, rfl⟩
      | inLen => exact .inr (.inl ⟨rfl, rfl⟩)
      | status | outLen | inCap | outCap | reserved => exact .inr (.inr (.inr rfl))
    | inWindow i => exact .inr (.inr (.inl ⟨i, rfl, rfl⟩))
    | outWindow i => exact .inr (.inr (.inr rfl))
    | unmapped => exact .inr (.inr (.inr rfl))

theorem effectOf_write_inWindow (s : State) {i : Nat} (value : Nat) (hreleased : s.resetAsserted = false)
    (hi : i < 65536) :
    effectOf s (.write (0x10000 + i) 1 value) = { s with inBuf := s.inBuf.write i (BitVec.ofNat 8 value) } := by
  rw [effectOf_write_of_released _ _ _ s hreleased, targetOf_inWindow hi]

/-- A write that does not reach `CMD` changes at most `IN` and `IN_LEN`. -/
theorem effectOf_write_frame (s : State) {off width : Nat} (value : Nat) (h : targetOf off width ≠ .register .cmd) :
    effectOf s (.write off width value) =
      { s with inBuf := (effectOf s (.write off width value)).inBuf, inLen := (effectOf s (.write off width value)).inLen } := by
  rcases effectOf_write_cases s off width value with ⟨ht, -⟩ | ⟨-, he⟩ | ⟨i, -, he⟩ | he
  · exact absurd ht h
  · rw [he]
  · rw [he]
  · rw [he]

/-- The targets on which a write does nothing: all but `CMD`, `IN_LEN` and the cells of `IN` (R39, R40, R46). -/
def IgnoresWrites : Target → Prop
  | .register r => r ≠ .cmd ∧ r ≠ .inLen
  | .inWindow _ => False
  | .outWindow _ | .unmapped => True

theorem effectOf_write_of_ignored (s : State) {off width : Nat} (value : Nat) (h : IgnoresWrites (targetOf off width)) :
    effectOf s (.write off width value) = s := by
  rcases effectOf_write_cases s off width value with ⟨ht, -⟩ | ⟨ht, -⟩ | ⟨i, ht, -⟩ | he
  · rw [ht] at h
    exact absurd rfl h.1
  · rw [ht] at h
    exact absurd rfl h.2
  · rw [ht] at h
    exact h.elim
  · exact he

/-- `CMD` stands at offset 0 and nowhere else (R37). -/
theorem off_eq_zero_of_targetOf_cmd {off width : Nat} (h : targetOf off width = .register .cmd) : off = 0 := by
  by_cases hlegal : LegalAccess off width
  · rcases legalAccess_cases hlegal with ⟨r, hr, ht⟩ | ⟨i, -, -, ht⟩ | ⟨i, -, -, ht⟩
    · obtain rfl : r = .cmd := Target.register.inj (ht.symm.trans h)
      exact registerAt_eq_cmd hr
    · cases ht.symm.trans h
    · cases ht.symm.trans h
  · cases (targetOf_of_not_legal hlegal).symm.trans h

/-- The read-only and reserved registers and the OUT window ignore writes (R21, R23, R30, R39, R46). -/
theorem ignoresWrites_of_readOnly {off width : Nat} (hlegal : LegalAccess off width)
    (hoff : off ∈ [0x04, 0x0C, 0x10, 0x14, 0x18, 0x1C] ∨ 0x20000 ≤ off) : IgnoresWrites (targetOf off width) := by
  have hlisted : ∀ off ∈ [0x04, 0x0C, 0x10, 0x14, 0x18, 0x1C],
      off < 0x20 ∧ registerAt off ≠ some .cmd ∧ registerAt off ≠ some .inLen := by decide
  rcases legalAccess_cases hlegal with ⟨r, hr, ht⟩ | ⟨i, hi, rfl, -⟩ | ⟨i, -, -, ht⟩
  · obtain ⟨hlow, -⟩ := registerAt_bounds hr
    obtain ⟨-, hcmd, hlen⟩ := hlisted off (hoff.resolve_right (by omega))
    rw [ht]
    exact ⟨fun h => hcmd (h ▸ hr), fun h => hlen (h ▸ hr)⟩
  · rcases hoff with hmem | hout
    · obtain ⟨hlow, -⟩ := hlisted _ hmem
      omega
    · omega
  · rw [ht]
    trivial

/-! ### The step that serves an access -/

theorem step_of_idle (s : State) (e : HostEvent) (rest : List HostEvent) (hidle : s.busy = false)
    (hport : s.port = e :: rest) : step s = .next (serve e rest s) := by
  unfold step
  rw [hidle, hport]

/-- An access without effect: the block stays as it is and the answer is appended. -/
theorem step_of_access_without_effect (s : State) (a : BusAccess) (rest : List HostEvent) (hidle : s.busy = false)
    (hport : s.port = .access a :: rest) (h : effectOf s a = s) :
    step s = .next { s with port := rest, responses := s.responses ++ [respondTo s a] } := by
  rw [step_of_idle s _ rest hidle hport, serve, h]

theorem step_of_inWindow_write (s : State) {i : Nat} (value : Nat) (rest : List HostEvent) (hidle : s.busy = false)
    (hreleased : s.resetAsserted = false) (hi : i < 65536)
    (hport : s.port = .access (.write (0x10000 + i) 1 value) :: rest) :
    step s = .next { s with
      inBuf := s.inBuf.write i (BitVec.ofNat 8 value), port := rest, responses := s.responses ++ [.ack] } := by
  have hlegal : LegalAccess (0x10000 + i) 1 := .inr ⟨by omega, by omega, rfl⟩
  rw [step_of_idle s _ rest hidle hport, serve, effectOf_write_inWindow s value hreleased hi,
    respondTo_write_of_legal s value hlegal]

/-- Settles O58: an access that is not legal reaches nothing, so it has no effect and gets a bus error. -/
theorem wrongAccessGetsABusError : Obligations.WrongAccessGetsABusError := by
  unfold Obligations.WrongAccessGetsABusError
  rintro s off width value rest hidle hwrong (hport | hport)
  · rw [step_of_access_without_effect s _ rest hidle hport (effectOf_read off width s),
      respondTo_read_of_not_legal s hwrong]
  · have hignored : IgnoresWrites (targetOf off width) := by rw [targetOf_of_not_legal hwrong]; trivial
    rw [step_of_access_without_effect s _ rest hidle hport (effectOf_write_of_ignored s value hignored),
      respondTo_write_of_not_legal s value hwrong]

/-- Settles O56: the write reaches cell `i`, stores there and nowhere else, and a read of `IN` finds the listed byte. -/
theorem inWindowWriteStoresOneCell : Obligations.InWindowWriteStoresOneCell := by
  unfold Obligations.InWindowWriteStoresOneCell
  intro s i v rest hidle hreleased hi hport
  refine ⟨_, step_of_inWindow_write s v rest hidle hreleased hi hport, ?_, ?_, rfl⟩
  · rw [respondTo_read_inWindow _ hi, inCell, Memory.read_write_same, Option.getD_some]
  · intro j hj
    rw [inCell, inCell, Memory.read_write_other _ _ _ _ hj]

/-- Settles O59: no read and no ignored write has an effect, and a write beside `CMD` is one of the two that store. -/
theorem readsAndIgnoredWritesChangeNothing : Obligations.ReadsAndIgnoredWritesChangeNothing := by
  unfold Obligations.ReadsAndIgnoredWritesChangeNothing
  intro s off width value rest
  refine ⟨effectOf_read off width s, fun hidle hport => ?_, fun hlegal hoff => ?_, fun hoff => ?_⟩
  · exact step_of_access_without_effect s _ rest hidle hport (effectOf_read off width s)
  · have heffect : effectOf s (.write off width value) = s :=
      effectOf_write_of_ignored s value (ignoresWrites_of_readOnly hlegal hoff)
    refine ⟨heffect, fun hidle hport => ?_⟩
    rw [step_of_access_without_effect s _ rest hidle hport heffect, respondTo_write_of_legal s value hlegal]
  · exact effectOf_write_frame s value fun hcmd => hoff (off_eq_zero_of_targetOf_cmd hcmd)

end Sys2Proof.Proofs
end

section
/-! PROOFS. The command word (R53 to R59). A word is its four fields side by side, `assemble` writes them and the decoder looks at
nothing else. `decodeShape` says once which branch a word takes; the round trips, the opcode map and the illegal words of R59
follow from it. -/

namespace Sys2Proof.Proofs

-- One theorem at a time: elaborating many at once would take a thread's stack for each.
set_option Elab.async false

open Sys2Proof Sys2Proof.Machine

/-! ### The fields of a word -/

/-- The four fields side by side are the word (R53). -/
theorem fields_append (w : Word) : fieldRsv w ++ fieldB w ++ fieldA w ++ fieldOpc w = w := by
  have hrb : fieldRsv w ++ fieldB w = w.extractLsb' 17 15 := BitVec.extractLsb'_append_extractLsb'_eq_extractLsb' rfl
  have hrba : w.extractLsb' 17 15 ++ fieldA w = w.extractLsb' 8 24 :=
    BitVec.extractLsb'_append_extractLsb'_eq_extractLsb' rfl
  have hall : w.extractLsb' 8 24 ++ fieldOpc w = w.extractLsb' 0 32 :=
    BitVec.extractLsb'_append_extractLsb'_eq_extractLsb' rfl
  rw [hrb, hrba, hall, BitVec.extractLsb'_eq_self]

/-- A word without reserved bits is the one `assemble` makes of its fields. -/
theorem assemble_of_fields {w : Word} {opc a b : Nat} (hrsv : fieldRsv w = 0) (hopc : fieldOpc w = BitVec.ofNat 8 opc)
    (ha : fieldA w = BitVec.ofNat 9 a) (hb : fieldB w = BitVec.ofNat 9 b) : assemble opc a b = w := by
  rw [← fields_append w, hrsv, hopc, ha, hb, assemble]

@[simp] theorem fieldOpc_assemble (opc a b : Nat) : fieldOpc (assemble opc a b) = BitVec.ofNat 8 opc :=
  BitVec.extractLsb'_append_eq_right

@[simp] theorem fieldA_assemble (opc a b : Nat) : fieldA (assemble opc a b) = BitVec.ofNat 9 a := by
  rw [fieldA, assemble, BitVec.extractLsb'_append_eq_of_le (by omega)]
  exact BitVec.extractLsb'_append_eq_right

@[simp] theorem fieldB_assemble (opc a b : Nat) : fieldB (assemble opc a b) = BitVec.ofNat 9 b := by
  rw [fieldB, assemble, BitVec.extractLsb'_append_eq_of_le (by omega), BitVec.extractLsb'_append_eq_of_le (by omega)]
  exact BitVec.extractLsb'_append_eq_right

@[simp] theorem fieldRsv_assemble (opc a b : Nat) : fieldRsv (assemble opc a b) = 0 := by
  rw [fieldRsv, assemble, BitVec.extractLsb'_append_eq_of_le (by omega), BitVec.extractLsb'_append_eq_of_le (by omega)]
  exact BitVec.extractLsb'_append_eq_left

/-- `A[8]` is bit 16 of the word (R53). -/
theorem getLsbD_fieldA (w : Word) : (fieldA w).getLsbD 8 = w.getLsbD 16 := by
  rw [fieldA, BitVec.getLsbD_extractLsb']
  rfl

/-- A nine-bit field whose top bit is clear holds a rank (R56). -/
theorem toNat_setWidth_of_topBit_clear {x : BitVec 9} (h : x.getLsbD 8 = false) : (x.setWidth 8).toNat = x.toNat := by
  rw [← BitVec.msb_eq_getLsbD_last (x := x), BitVec.msb_eq_false_iff_two_mul_lt] at h
  rw [BitVec.toNat_setWidth, Nat.mod_eq_of_lt (by omega)]

/-! ### What the decoder can answer -/

/-- The opcodes of format Z with their commands (R54, R57). -/
def formatZCommands : List (Nat × Instr) :=
  [(0x02, .cbBuild), (0x04, .cbDecode), (0x05, .frRank), (0x06, .dictSer), (0x07, .dictDes), (0x08, .egcEnc), (0x09, .egcDec)]

theorem formatZ_encode {opc : Nat} {i : Instr} (h : (opc, i) ∈ formatZCommands) :
    i.WellFormed ∧ encode i = assemble opc 0 0 := by
  simp only [formatZCommands, List.mem_cons, Prod.mk.injEq, List.not_mem_nil, or_false] at h
  rcases h with ⟨rfl, rfl⟩ | ⟨rfl, rfl⟩ | ⟨rfl, rfl⟩ | ⟨rfl, rfl⟩ | ⟨rfl, rfl⟩ | ⟨rfl, rfl⟩ | ⟨rfl, rfl⟩ <;> exact ⟨trivial, rfl⟩

/-- R59's third clause names the opcodes of format Z, and its other clauses none of them. -/
theorem formatZ_opcode {opc : Nat} {i : Instr} (h : (opc, i) ∈ formatZCommands) :
    BitVec.ofNat 8 opc ≠ 0x00 ∧ ¬ 0x0A ≤ (BitVec.ofNat 8 opc).toNat ∧
    (BitVec.ofNat 8 opc).toNat ∈ [0x02, 0x04, 0x05, 0x06, 0x07, 0x08, 0x09] ∧ BitVec.ofNat 8 opc ≠ 0x03 := by
  have hall : ∀ p ∈ formatZCommands, BitVec.ofNat 8 p.1 ≠ 0x00 ∧ ¬ 0x0A ≤ (BitVec.ofNat 8 p.1).toNat ∧
      (BitVec.ofNat 8 p.1).toNat ∈ [0x02, 0x04, 0x05, 0x06, 0x07, 0x08, 0x09] ∧ BitVec.ofNat 8 p.1 ≠ 0x03 := by decide
  exact hall _ h

/-- What the decoder answers to a word, by the branch the word takes (R58): the reserved field, then the opcode's format. -/
inductive DecodeShape (w : Word) : Except IllegalCommand Instr → Prop
  | reserved (hrsv : fieldRsv w ≠ 0) : DecodeShape w (.error .reservedField)
  | formatR (hrsv : fieldRsv w = 0) (hopc : fieldOpc w = 0x01) : DecodeShape w (decodeR w .radixConvert)
  | formatK (hrsv : fieldRsv w = 0) (hopc : fieldOpc w = 0x03) : DecodeShape w (decodeK w .cbEncode)
  | formatZ (hrsv : fieldRsv w = 0) {opc : Nat} {i : Instr} (hmem : (opc, i) ∈ formatZCommands)
      (hopc : fieldOpc w = BitVec.ofNat 8 opc) : DecodeShape w (decodeZ w i)
  | unknown (hrsv : fieldRsv w = 0) (hopc : fieldOpc w = 0 ∨ 0x0A ≤ (fieldOpc w).toNat) : DecodeShape w (.error .unknownOpcode)

theorem decodeShape (w : Word) : DecodeShape w (decode w) := by
  unfold decode
  refine iteInduction (motive := DecodeShape w) .reserved fun hany => ?_
  have hrsv : fieldRsv w = 0 := not_not.mp hany
  have hZ {opc : Nat} {i : Instr} (hmem : (opc, i) ∈ formatZCommands) (hopc : fieldOpc w = BitVec.ofNat 8 opc) :
      DecodeShape w (decodeZ w i) := .formatZ hrsv hmem hopc
  refine iteInduction (.formatR hrsv) fun h1 => ?_
  refine iteInduction (hZ (by decide)) fun h2 => ?_
  refine iteInduction (.formatK hrsv) fun h3 => ?_
  refine iteInduction (hZ (by decide)) fun h4 => ?_
  refine iteInduction (hZ (by decide)) fun h5 => ?_
  refine iteInduction (hZ (by decide)) fun h6 => ?_
  refine iteInduction (hZ (by decide)) fun h7 => ?_
  refine iteInduction (hZ (by decide)) fun h8 => ?_
  refine iteInduction (hZ (by decide)) fun h9 => ?_
  refine .unknown hrsv ?_
  bv_omega

/-! ### The round trips -/

theorem decodeZ_eq_ok {w : Word} {i j : Instr} (h : decodeZ w i = .ok j) : fieldA w = 0 ∧ fieldB w = 0 ∧ i = j := by
  unfold decodeZ at h
  split at h
  · next hab => exact ⟨hab.1, hab.2, Except.ok.inj h⟩
  · cases h

theorem decodeK_eq_ok {w : Word} {k : Nat → Instr} {j : Instr} (h : decodeK w k = .ok j) :
    fieldB w = 0 ∧ (fieldA w).getLsbD 8 = false ∧ k ((fieldA w).setWidth 8).toNat = j := by
  unfold decodeK at h
  split at h
  · next hab => exact ⟨hab.1, hab.2, Except.ok.inj h⟩
  · cases h

/-- A word in format R is the encoding of its two bases. -/
theorem encode_of_formatR {w : Word} (hrsv : fieldRsv w = 0) (hopc : fieldOpc w = 0x01) :
    encode (.radixConvert (fieldA w).toNat (fieldB w).toNat) = w :=
  assemble_of_fields hrsv hopc (by simp) (by simp)

/-- A word in format K is the encoding of its rank. -/
theorem encode_of_formatK {w : Word} (hrsv : fieldRsv w = 0) (hopc : fieldOpc w = 0x03) (hb : fieldB w = 0)
    (htop : (fieldA w).getLsbD 8 = false) : encode (.cbEncode ((fieldA w).setWidth 8).toNat) = w := by
  rw [toNat_setWidth_of_topBit_clear htop]
  exact assemble_of_fields hrsv hopc (by simp) hb

theorem encode_of_decode {w : Word} {i : Instr} (h : decode w = .ok i) : i.WellFormed ∧ encode i = w := by
  have hshape := decodeShape w
  rw [h] at hshape
  generalize hr : Except.ok i = r at hshape
  cases hshape with
  | reserved | unknown => cases hr
  | formatR hrsv hopc =>
    obtain rfl := Except.ok.inj hr
    exact ⟨⟨(fieldA w).isLt, (fieldB w).isLt⟩, encode_of_formatR hrsv hopc⟩
  | formatK hrsv hopc =>
    obtain ⟨hb, htop, rfl⟩ := decodeK_eq_ok hr.symm
    exact ⟨((fieldA w).setWidth 8).isLt, encode_of_formatK hrsv hopc hb htop⟩
  | formatZ hrsv hmem hopc =>
    obtain ⟨ha, hb, rfl⟩ := decodeZ_eq_ok hr.symm
    obtain ⟨hwf, hencode⟩ := formatZ_encode hmem
    exact ⟨hwf, hencode.trans (assemble_of_fields hrsv hopc ha hb)⟩

/-- The decoder reads the bases back: a base that fits its field loses no bit in it (R55). -/
theorem decode_encode_radixConvert {a b : Nat} (ha : FitsBaseField a) (hb : FitsBaseField b) :
    decode (encode (.radixConvert a b)) = .ok (.radixConvert a b) := by
  have hformat : decode (assemble 0x01 a b) = decodeR (assemble 0x01 a b) .radixConvert := by
    rw [decode, fieldRsv_assemble, fieldOpc_assemble]
    rfl
  rw [encode, hformat, decodeR, fieldA_assemble, fieldB_assemble, BitVec.toNat_ofNat, BitVec.toNat_ofNat,
    Nat.mod_eq_of_lt ha, Nat.mod_eq_of_lt hb]

/-- The decoder reads the rank back: a rank fits `A[7:0]` and leaves `A[8]` clear (R54, R56). -/
theorem decode_encode_cbEncode {r : Nat} (hr : FitsRankField r) : decode (encode (.cbEncode r)) = .ok (.cbEncode r) := by
  have hformat : decode (assemble 0x03 r 0) = decodeK (assemble 0x03 r 0) .cbEncode := by
    rw [decode, fieldRsv_assemble, fieldOpc_assemble]
    rfl
  have htop : (BitVec.ofNat 9 r).getLsbD 8 = false := by
    rw [BitVec.getLsbD_ofNat, Nat.testBit_lt_two_pow (show r < 2 ^ 8 from hr), Bool.and_false]
  rw [encode, hformat, decodeK, fieldA_assemble, fieldB_assemble, if_pos ⟨rfl, htop⟩, toNat_setWidth_of_topBit_clear htop,
    BitVec.toNat_ofNat, Nat.mod_eq_of_lt (by omega)]

theorem decode_encode {i : Instr} (h : i.WellFormed) : decode (encode i) = .ok i := by
  cases i with
  | radixConvert a b => exact decode_encode_radixConvert h.1 h.2
  | cbEncode r => exact decode_encode_cbEncode h
  | cbBuild | cbDecode | frRank | dictSer | dictDes | egcEnc | egcDec => decide

/-- Settles O1: each operand stands in a field that holds it, and the decoder reads the same fields. -/
theorem decodeOfEncodeIsTheCommand : Obligations.DecodeOfEncodeIsTheCommand := by
  unfold Obligations.DecodeOfEncodeIsTheCommand
  exact fun i h => decode_encode h

/-- Settles O2: a word that decodes has no reserved bit and the fields of its command, and a word is its four fields. -/
theorem encodeOfDecodeIsTheWord : Obligations.EncodeOfDecodeIsTheWord := by
  unfold Obligations.EncodeOfDecodeIsTheWord
  exact fun w i h => encode_of_decode h

/-- Settles O5: the words are closed, and the decoder runs on them. -/
theorem wordsOfTheSpecDecode : Obligations.WordsOfTheSpecDecode := by
  unfold Obligations.WordsOfTheSpecDecode
  decide

/-! ### The opcode map -/

/-- A selected word agrees with the row's match word on every bit range the mask covers (R57). -/
theorem extractLsb'_of_selects {row : OpcodeRow} {w : Word} {start len : Nat} (h : row.selects w = true)
    (hmask : row.maskWord.extractLsb' start len = BitVec.allOnes len) :
    w.extractLsb' start len = row.matchWord.extractLsb' start len := by
  rw [OpcodeRow.selects, beq_iff_eq] at h
  rw [← h, BitVec.extractLsb'_and, hmask, BitVec.and_allOnes]

/-- A row whose mask covers the word selects its match word alone. -/
theorem eq_matchWord_of_selects {row : OpcodeRow} {w : Word} (h : row.selects w = true)
    (hmask : row.maskWord = BitVec.allOnes 32) : row.matchWord = w := by
  rw [OpcodeRow.selects, beq_iff_eq, hmask, BitVec.and_allOnes] at h
  exact h.symm

/-- Every word a row selects is the encoding of a command with the row's mnemonic. -/
theorem exists_command_of_selects {row : OpcodeRow} {w : Word} (hrow : row ∈ opcodeTable) (h : row.selects w = true) :
    ∃ i : Instr, i.WellFormed ∧ encode i = w ∧ i.mnemonic = row.mnemonic := by
  simp only [opcodeTable, List.mem_cons, List.not_mem_nil, or_false] at hrow
  rcases hrow with rfl | rfl | rfl | rfl | rfl | rfl | rfl | rfl | rfl
  · have hrsv : fieldRsv w = 0 := extractLsb'_of_selects h (by decide)
    have hopc : fieldOpc w = 0x01 := extractLsb'_of_selects h (by decide)
    exact ⟨.radixConvert _ _, ⟨(fieldA w).isLt, (fieldB w).isLt⟩, encode_of_formatR hrsv hopc, rfl⟩
  · exact ⟨.cbBuild, trivial, eq_matchWord_of_selects h rfl, rfl⟩
  · have hrsv : fieldRsv w = 0 := extractLsb'_of_selects h (by decide)
    have hopc : fieldOpc w = 0x03 := extractLsb'_of_selects h (by decide)
    have hb : fieldB w = 0 := extractLsb'_of_selects h (by decide)
    have htop : w.extractLsb' 16 1 = 0 := extractLsb'_of_selects h (by decide)
    have hbit : (fieldA w).getLsbD 8 = false := by
      rw [getLsbD_fieldA]
      simpa using congrArg (·.getLsbD 0) htop
    exact ⟨.cbEncode _, ((fieldA w).setWidth 8).isLt, encode_of_formatK hrsv hopc hb hbit, rfl⟩
  · exact ⟨.cbDecode, trivial, eq_matchWord_of_selects h rfl, rfl⟩
  · exact ⟨.frRank, trivial, eq_matchWord_of_selects h rfl, rfl⟩
  · exact ⟨.dictSer, trivial, eq_matchWord_of_selects h rfl, rfl⟩
  · exact ⟨.dictDes, trivial, eq_matchWord_of_selects h rfl, rfl⟩
  · exact ⟨.egcEnc, trivial, eq_matchWord_of_selects h rfl, rfl⟩
  · exact ⟨.egcDec, trivial, eq_matchWord_of_selects h rfl, rfl⟩

/-- Every command has a row that selects its word (R57). -/
theorem rowMatch : ∀ i : Instr, Laws.RowMatch.Statement i
  | .radixConvert a b => Laws.RowMatch.radixConvert a b
  | .cbBuild => Laws.RowMatch.cbBuild
  | .cbEncode r => Laws.RowMatch.cbEncode r
  | .cbDecode => Laws.RowMatch.cbDecode
  | .frRank => Laws.RowMatch.frRank
  | .dictSer => Laws.RowMatch.dictSer
  | .dictDes => Laws.RowMatch.dictDes
  | .egcEnc => Laws.RowMatch.egcEnc
  | .egcDec => Laws.RowMatch.egcDec

/-- No two rows share a mnemonic. -/
theorem opcodeRow_eq_of_mnemonic : ∀ row ∈ opcodeTable, ∀ row' ∈ opcodeTable, row.mnemonic = row'.mnemonic → row = row' := by
  decide

/-- Every mnemonic of a command stands in the map once. -/
theorem filter_mnemonic (i : Instr) :
    (opcodeTable.filter (·.mnemonic == i.mnemonic)).map (·.mnemonic) = [i.mnemonic] := by
  cases i <;> rfl

/-- A row selects exactly the words that decode to its command. -/
theorem selects_iff_decode {row : OpcodeRow} (hrow : row ∈ opcodeTable) (w : Word) :
    row.selects w = true ↔ ∃ i, decode w = .ok i ∧ row.mnemonic = i.mnemonic := by
  constructor
  · intro h
    obtain ⟨i, hwf, rfl, hmnemonic⟩ := exists_command_of_selects hrow h
    exact ⟨i, decode_encode hwf, hmnemonic.symm⟩
  · rintro ⟨i, hdecode, hmnemonic⟩
    obtain ⟨hwf, rfl⟩ := encode_of_decode hdecode
    obtain ⟨row', hrow', hmnemonic', hmatch⟩ := rowMatch i hwf
    obtain rfl := opcodeRow_eq_of_mnemonic row hrow row' hrow' (hmnemonic.trans hmnemonic'.symm)
    exact beq_iff_eq.mpr hmatch

/-- Settles O3: the rows that select a word are those with the mnemonic of the command it decodes to. -/
theorem everyWordSelectsOneRowOrIsIllegal : Obligations.EveryWordSelectsOneRowOrIsIllegal := by
  unfold Obligations.EveryWordSelectsOneRowOrIsIllegal
  intro w
  cases hdecode : decode w with
  | error e =>
    have hnone : opcodeTable.filter (·.selects w) = [] :=
      List.filter_eq_nil_iff.mpr fun row hrow => by simp [selects_iff_decode hrow, hdecode]
    rw [hnone, List.map_nil]
  | ok i =>
    have hsame : opcodeTable.filter (·.selects w) = opcodeTable.filter (·.mnemonic == i.mnemonic) :=
      List.filter_congr fun row hrow => Bool.eq_iff_iff.mpr (by simp [selects_iff_decode hrow, hdecode])
    rw [hsame, filter_mnemonic]

/-! ### Illegal words -/

theorem decodeZ_eq_error_iff {w : Word} {i : Instr} : (∃ e, decodeZ w i = .error e) ↔ fieldA w ≠ 0 ∨ fieldB w ≠ 0 := by
  unfold decodeZ
  split
  · next hab => simp [hab]
  · next hab => exact ⟨fun _ => not_and_or.mp hab, fun _ => ⟨_, rfl⟩⟩

theorem decodeK_eq_error_iff {w : Word} {k : Nat → Instr} :
    (∃ e, decodeK w k = .error e) ↔ fieldB w ≠ 0 ∨ (fieldA w).getLsbD 8 = true := by
  unfold decodeK
  split
  · next hb => simp [hb.1, hb.2, -BitVec.getLsbD_eq_getElem]
  · next hb =>
    refine ⟨fun _ => ?_, fun _ => ⟨_, rfl⟩⟩
    rwa [not_and_or, Bool.not_eq_false] at hb

/-- R59 over the fields the decoder reads. -/
theorem illegalByRule_iff_fields (w : Word) : IllegalByRule w ↔
    fieldRsv w ≠ 0 ∨ fieldOpc w = 0x00 ∨ 0x0A ≤ (fieldOpc w).toNat ∨
    ((fieldOpc w).toNat ∈ [0x02, 0x04, 0x05, 0x06, 0x07, 0x08, 0x09] ∧ (fieldA w ≠ 0 ∨ fieldB w ≠ 0)) ∨
    (fieldOpc w = 0x03 ∧ (fieldB w ≠ 0 ∨ (fieldA w).getLsbD 8 = true)) := by
  rw [getLsbD_fieldA]
  rfl

/-- The words R59 lists are the words the decoder rejects. -/
theorem illegalByRule_iff_decode (w : Word) : IllegalByRule w ↔ ∃ e, decode w = .error e := by
  rw [illegalByRule_iff_fields]
  have hshape := decodeShape w
  generalize decode w = r at hshape
  cases hshape with
  | reserved hrsv => exact ⟨fun _ => ⟨_, rfl⟩, fun _ => .inl hrsv⟩
  | unknown hrsv hopc => exact ⟨fun _ => ⟨_, rfl⟩, fun _ => .inr (hopc.imp_right .inl)⟩
  | formatR hrsv hopc => simp [hrsv, hopc, decodeR]
  | formatK hrsv hopc =>
    rw [decodeK_eq_error_iff]
    simp [hrsv, hopc]
  | formatZ hrsv hmem hopc =>
    obtain ⟨hne0, hlt, hlisted, hne3⟩ := formatZ_opcode hmem
    rw [decodeZ_eq_error_iff, hopc]
    simp only [hrsv, hne0, hlt, hlisted, hne3, ne_eq, not_true_eq_false, false_or, true_and, false_and, or_false]

theorem completeCommand_of_ok {s : State} {i : Instr} (h : decode s.cmd = .ok i) : completeCommand s = exec i s := by
  rw [completeCommand, h]

/-- An illegal command completes with `ERR_ILLEGAL` and without the Codebook (R153). -/
theorem completeCommand_of_error {s : State} {e : IllegalCommand} (h : decode s.cmd = .error e) :
    completeCommand s = .next (afterError s 0x01) := by
  rw [completeCommand, h]
  rfl

/-- The step of a running command to which no event is still to land is its completion. -/
theorem step_of_completion {s : State} (hbusy : s.busy = true) (hdue : s.busyFor = 0 ∨ s.port = []) :
    step s = completeCommand s := by
  rcases step_cases s with ⟨hidle, -, -⟩ | ⟨e, rest, hidle, -, -⟩ | ⟨-, -, hstep⟩ | ⟨e, rest, n, -, hfor, hport, -⟩
  · simp [hbusy] at hidle
  · simp [hbusy] at hidle
  · exact hstep
  · simp [hfor, hport] at hdue

/-- Settles O4: the words of R59 are those the decoder rejects, and the completion of a rejected word is `ERR_ILLEGAL`. -/
theorem illegalWordsEndInErrIllegal : Obligations.IllegalWordsEndInErrIllegal := by
  unfold Obligations.IllegalWordsEndInErrIllegal
  intro s hbusy hdue
  rw [step_of_completion hbusy hdue, illegalByRule_iff_decode]
  refine ⟨fun ⟨e, he⟩ => completeCommand_of_error he, fun hlegal => ?_⟩
  cases hdecode : decode s.cmd with
  | error e => exact absurd ⟨e, hdecode⟩ hlegal
  | ok i => exact ⟨i, rfl, completeCommand_of_ok hdecode⟩

end Sys2Proof.Proofs
end

section
/-! PROOFS. The verb `LOAD` (R63, R171): its byte writes store the sequence in `IN` cell by cell, and its write of `IN_LEN` makes
the sequence the operand. -/

namespace Sys2Proof.Proofs

-- One theorem at a time: elaborating many at once would take a thread's stack for each.
set_option Elab.async false

open Sys2Proof Sys2Proof.Machine

/-! ### A sequence written into a buffer -/

/-- The buffer after the bytes `bytes` are written to the cells `i, i + 1, ..` in turn. -/
def storeBytes (m : Memory) (i : Nat) : List Byte → Memory
  | [] => m
  | v :: vs => storeBytes (m.write i v) (i + 1) vs

theorem read_storeBytes_before (m : Memory) {i j : Nat} (bytes : List Byte) (hj : j < i) :
    (storeBytes m i bytes).read j = m.read j := by
  induction bytes generalizing m i with
  | nil => rfl
  | cons v vs ih => rw [storeBytes, ih _ (by omega), Memory.read_write_other _ _ _ _ (by omega)]

theorem read_storeBytes (m : Memory) (i j : Nat) (bytes : List Byte) (hj : j < bytes.length) :
    (storeBytes m i bytes).read (i + j) = some bytes[j] := by
  induction bytes generalizing m i j with
  | nil => exact absurd hj (Nat.not_lt_zero j)
  | cons v vs ih =>
    rw [storeBytes]
    cases j with
    | zero =>
      rw [read_storeBytes_before _ vs (by omega), Nat.add_zero, Memory.read_write_same, List.getElem_cons_zero]
    | succ j => rw [show i + (j + 1) = i + 1 + j by omega, ih _ _ _ (by simpa using hj), List.getElem_cons_succ]

/-- Whatever `IN` held, the bytes stored from cell 0 upward are the operand of their number. -/
theorem operand_of_storeBytes {t : State} {m : Memory} {bytes : List Byte} (hbuf : t.inBuf = storeBytes m 0 bytes)
    (hlen : t.inLen.toNat = bytes.length) : operand t = bytes.map (·.toNat) := by
  apply List.ext_getElem
  · rw [operand_length, hlen, List.length_map]
  · intro j _ hj
    have hread : t.inBuf.read j = some (bytes[j]'(by simpa using hj)) := by
      rw [hbuf, ← read_storeBytes m 0 j bytes, Nat.zero_add]
    simp only [operand, List.getElem_map, List.getElem_range, inCell, hread, Option.getD_some]

/-! ### The run of the accesses -/

/-- The step that serves a write of `IN_LEN` stores the value and acknowledges it (R19). -/
theorem step_of_inLen_write (s : State) (value : Nat) (rest : List HostEvent) (hidle : s.busy = false)
    (hreleased : s.resetAsserted = false) (hport : s.port = .access (.write 0x08 4 value) :: rest) :
    step s = .next { s with inLen := BitVec.ofNat 32 value, port := rest, responses := s.responses ++ [.ack] } := by
  rw [step_of_idle s _ rest hidle hport, serve, effectOf_write_of_released _ _ _ s hreleased,
    targetOf_register (r := .inLen) rfl, respondTo_write_of_legal s value (.inl (by decide))]
  rfl

/-- The byte writes of `LOAD` store the bytes, are acknowledged one by one, and change nothing else. -/
theorem run_loadCells (bytes : List Byte) (s : State) (i : Nat) (rest : List HostEvent) (hidle : s.busy = false)
    (hreleased : s.resetAsserted = false) (hfits : i + bytes.length ≤ 65536) (hport : s.port = loadCells i bytes ++ rest) :
    Host.Core.run Sys2Proof.core bytes.length s = .next { s with
      inBuf := storeBytes s.inBuf i bytes, port := rest
      responses := s.responses ++ List.replicate bytes.length .ack } := by
  induction bytes generalizing s i with
  | nil =>
    obtain rfl : s.port = rest := hport
    simp [Host.Core.run, storeBytes]
  | cons v vs ih =>
    rw [List.length_cons] at hfits
    have hstep := step_of_inWindow_write s v.toNat (loadCells (i + 1) vs ++ rest) hidle hreleased (by omega) hport
    refine (run_succ Sys2Proof.core _ _ _ hstep).trans ((ih _ (i + 1) ?_ ?_ (by omega) ?_).trans ?_)
    · exact hidle
    · exact hreleased
    · rfl
    · simp [storeBytes, List.replicate_succ]

/-- Settles O60: the run of the byte writes, then the step that writes `IN_LEN`. -/
theorem loadMakesTheOperand : Obligations.LoadMakesTheOperand := by
  unfold Obligations.LoadMakesTheOperand
  intro s bytes rest hidle hreleased hfits hport
  rw [hostLoad, List.append_assoc] at hport
  have hcells := run_loadCells bytes s 0 _ hidle hreleased (by omega) hport
  refine ⟨_, (run_add _ _ 1 _ _ hcells).trans (run_succ Sys2Proof.core 0 _ _
    (step_of_inLen_write _ bytes.length rest ?_ ?_ ?_)), ?_, rfl, hidle, rfl, rfl, rfl⟩
  · exact hidle
  · exact hreleased
  · rfl
  · exact operand_of_storeBytes rfl (by rw [BitVec.toNat_ofNat, Nat.mod_eq_of_lt (by omega)])

end Sys2Proof.Proofs
end

section
/-! PROOFS. The patterns of the Codebook (R81 to R85). The pattern of a rank is pinned by its length and its value, and its leading
zeros tell its length: that is why no pattern begins another. -/

namespace Sys2Proof.Proofs

-- One theorem at a time: elaborating many at once would take a thread's stack for each.
set_option Elab.async false

open Sys2Proof Sys2Proof.Machine

/-- Two digit sequences of one length and one value are the same. -/
theorem eq_of_length_eq_of_val_eq {base : Nat} (hb : 2 ≤ base) {s t : List Nat} (hs : AllDigits base s)
    (ht : AllDigits base t) (hlen : s.length = t.length) (hval : val base s = val base t) : s = t := by
  rw [val_eq_ofDigits, val_eq_ofDigits] at hval
  exact List.reverse_injective (Nat.ofDigits_inj_of_len_eq hb (by simpa using hlen)
    (fun x hx => hs x (List.mem_reverse.mp hx)) (fun x hx => ht x (List.mem_reverse.mp hx)) hval)

theorem leadingZeros_zeros_append (n : Nat) {d : Nat} (hd : d ≠ 0) (s : List Nat) :
    leadingZeros (rep 0 n ++ d :: s) = n := by
  induction n with
  | zero => exact if_neg hd
  | succ n ih =>
    rw [rep, List.replicate_succ, List.cons_append, leadingZeros, if_pos rfl, ← rep, ih]

/-- What follows the first 1 bit does not change the leading zeros. -/
theorem leadingZeros_append {s : List Nat} (t : List Nat) (h : leadingZeros s < s.length) :
    leadingZeros (s ++ t) = leadingZeros s := by
  induction s with
  | nil => exact absurd h (Nat.not_lt_zero _)
  | cons d ds ih =>
    rw [List.cons_append, leadingZeros, leadingZeros]
    by_cases hd : d = 0
    · rw [leadingZeros, if_pos hd, List.length_cons] at h
      rw [if_pos hd, if_pos hd, ih (by omega)]
    · rw [if_neg hd, if_neg hd]

/-! ### The shape of a pattern -/

/-- The fixed rendering of a number of exactly `k + 1` bits starts with its 1 bit. -/
theorem binFixed_of_top_bit {k v : Nat} (hlow : 2 ^ k ≤ v) (hhigh : v < 2 ^ (k + 1)) :
    binFixed (k + 1) v = 1 :: binFixed k v := by
  have htop : v / 2 ^ k = 1 := Nat.div_eq_of_lt_le (by omega) (by rw [pow_succ] at hhigh; omega)
  rw [binFixed, htop]

/-- The rank plus 2 has at least two bits. -/
theorem one_le_log2_rank (r : Nat) : 1 ≤ Nat.log2 (r + 2) := (Nat.le_log2 (by omega)).mpr (by omega)

/-- R81, with `k = L - 1`: `k - 1` zeros, the 1 bit, and the `k` bits below it. -/
theorem cbPat_eq (r : Nat) :
    cbPat r = rep 0 (Nat.log2 (r + 2) - 1) ++ 1 :: binFixed (Nat.log2 (r + 2)) (r + 2) := by
  have htop := binFixed_of_top_bit (Nat.log2_self_le (show r + 2 ≠ 0 by omega)) Nat.lt_log2_self
  rw [cbPat, htop, show Nat.log2 (r + 2) + 1 - 2 = Nat.log2 (r + 2) - 1 by omega]

theorem cbPat_length (r : Nat) : (cbPat r).length = 2 * Nat.log2 (r + 2) := by
  have hbits := one_le_log2_rank r
  rw [cbPat_eq, rep, List.length_append, List.length_replicate, List.length_cons, binFixed_length]
  omega

theorem leadingZeros_cbPat (r : Nat) : leadingZeros (cbPat r) = Nat.log2 (r + 2) - 1 := by
  rw [cbPat_eq, leadingZeros_zeros_append _ one_ne_zero]

theorem val_cbPat (r : Nat) : val 2 (cbPat r) = r + 2 := by
  rw [cbPat, val_rep_append, binFixed_val, Nat.mod_eq_of_lt Nat.lt_log2_self]

theorem cbPat_digits (r : Nat) : AllDigits 2 (cbPat r) := by
  intro x hx
  rcases List.mem_append.mp hx with hzero | hbit
  · rw [List.eq_of_mem_replicate hzero]
    exact Nat.two_pos
  · exact binFixed_digits _ _ x hbit

/-- Bits are the pattern of a rank when they have its length and its value. -/
theorem eq_cbPat_iff {bits : List Nat} (hbits : AllDigits 2 bits) (r : Nat) :
    bits = cbPat r ↔ bits.length = (cbPat r).length ∧ val 2 bits = r + 2 := by
  constructor
  · rintro rfl
    exact ⟨rfl, val_cbPat r⟩
  · rintro ⟨hlen, hval⟩
    exact eq_of_length_eq_of_val_eq le_rfl hbits (cbPat_digits r) hlen (hval.trans (val_cbPat r).symm)

/-- The 256 ranks have patterns of at most 16 bits (R84). -/
theorem cbPat_length_le {r : Nat} (hr : r < 256) : (cbPat r).length ≤ 16 := by
  have hlog : Nat.log2 (r + 2) < 9 := (Nat.log2_lt (by omega)).mpr (by omega)
  rw [cbPat_length]
  omega

/-- Settles O30: `L - 1` is the binary logarithm of `r + 2`, and the pattern is `L - 2` zeros before the `L` bits. -/
theorem patternsHaveTheShapeOfTheRule : Obligations.PatternsHaveTheShapeOfTheRule := by
  unfold Obligations.PatternsHaveTheShapeOfTheRule
  intro r l hlow hhigh
  have hl : l ≠ 0 := by
    rintro rfl
    omega
  have hlog : Nat.log2 (r + 2) = l - 1 :=
    (Nat.log2_eq_iff (by omega)).mpr ⟨hlow, by rwa [Nat.sub_add_cancel (Nat.one_le_iff_ne_zero.mpr hl)]⟩
  have hbits := one_le_log2_rank r
  refine ⟨val_cbPat r, ?_, ?_, cbPat_digits r, fun hr => ⟨?_, cbPat_length_le hr⟩⟩
  · rw [cbPat_length]
    omega
  · rw [leadingZeros_cbPat]
    omega
  · rw [cbPat_length]
    omega

/-- The leading zeros of a pattern stand inside it, so every sequence it begins has as many. -/
theorem leadingZeros_of_cbPat_prefix {r : Nat} {s : List Nat} (h : cbPat r <+: s) :
    leadingZeros s = Nat.log2 (r + 2) - 1 := by
  obtain ⟨t, rfl⟩ := h
  have hbits := one_le_log2_rank r
  rw [leadingZeros_append, leadingZeros_cbPat]
  rw [leadingZeros_cbPat, cbPat_length]
  omega

theorem cbPat_prefix_free {r r' : Nat} (h : cbPat r <+: cbPat r') : r = r' := by
  have hzeros := leadingZeros_of_cbPat_prefix h
  rw [leadingZeros_cbPat] at hzeros
  have hlen : (cbPat r).length = (cbPat r').length := by
    have hbits := one_le_log2_rank r
    have hbits' := one_le_log2_rank r'
    rw [cbPat_length, cbPat_length]
    omega
  have hval : val 2 (cbPat r) = val 2 (cbPat r') := by rw [h.eq_of_length hlen]
  rw [val_cbPat, val_cbPat] at hval
  omega

/-- Settles O31: a pattern that begins another has the same leading zeros, hence the same length, hence the same value. -/
theorem patternsArePrefixFree : Obligations.PatternsArePrefixFree := by
  unfold Obligations.PatternsArePrefixFree
  exact fun r r' h => cbPat_prefix_free h

end Sys2Proof.Proofs
end

section
/-! PROOFS. The lookups over the Codebook table (R87, R88, R91). What the built table holds, the exact lookup as the inverse of
`CB_PAT`, its closed form, and `CB_NEXT` in terms of the exact lookup, over any table. -/

namespace Sys2Proof.Proofs

-- One theorem at a time: elaborating many at once would take a thread's stack for each.
set_option Elab.async false

open Sys2Proof Sys2Proof.Machine

/-! ### The built table -/

/-- The entry of a rank holds the length and the value of its pattern, neither cut by its field (R29, R87). -/
theorem exists_cbBuilt_entry {r : Nat} (hr : r < 256) :
    ∃ e, cbBuilt[r]? = some e ∧ e.len.toNat = (cbPat r).length ∧ e.bits.toNat = r + 2 := by
  have hlen := cbPat_length_le hr
  refine ⟨⟨BitVec.ofNat 5 (cbPat r).length, BitVec.ofNat 16 (r + 2)⟩, ?_, ?_, ?_⟩
  · rw [cbBuilt, List.getElem?_map, List.getElem?_range hr, Option.map_some]
  · rw [BitVec.toNat_ofNat, Nat.mod_eq_of_lt (by omega)]
  · rw [BitVec.toNat_ofNat, Nat.mod_eq_of_lt (by omega)]

theorem cbBuilt_length : cbBuilt.length = 256 := by rw [cbBuilt, List.length_map, List.length_range]

/-- The pattern read from the built table is that of the rule (R89). -/
theorem cbPattern_cbBuilt {r : Nat} (hr : r < 256) : cbPattern cbBuilt r = cbPat r := by
  obtain ⟨e, hentry, hlen, hbits⟩ := exists_cbBuilt_entry hr
  have hfits : r + 2 < 2 ^ (cbPat r).length := by
    rw [← val_cbPat r]
    exact val_lt 2 _ (cbPat_digits r)
  rw [cbPattern, hentry, Option.map_some, Option.getD_some, CbEntry.pattern, hlen, hbits,
    eq_cbPat_iff (binFixed_digits _ _), binFixed_length, binFixed_val, Nat.mod_eq_of_lt hfits]
  exact ⟨rfl, rfl⟩

/-! ### The exact lookup -/

/-- The find answers a rank when the rank's entry holds the length and the value asked for, and the value is the rank's. -/
theorem cbFind_eq_some_iff (cb : List CbEntry) (len v r : Nat) :
    cbFind cb len v = some r ↔ v = r + 2 ∧ ∃ e, cb[r]? = some e ∧ e.len.toNat = len ∧ e.bits.toNat = v := by
  unfold cbFind
  split
  · next hsmall =>
    refine iff_of_false (fun h => nomatch h) ?_
    rintro ⟨rfl, -⟩
    omega
  · next hlarge =>
    obtain ⟨q, rfl⟩ := Nat.exists_eq_add_of_le' (Nat.not_lt.mp hlarge)
    rw [Nat.add_sub_cancel]
    by_cases hq : q = r
    · subst hq
      cases cb[q]? <;> simp
    · cases cb[q]? <;> simp [hq]

theorem cbFind_cbBuilt (len v r : Nat) :
    cbFind cbBuilt len v = some r ↔ r < 256 ∧ len = (cbPat r).length ∧ v = r + 2 := by
  rw [cbFind_eq_some_iff]
  constructor
  · rintro ⟨hv, e, hentry, rfl, -⟩
    have hr : r < 256 := cbBuilt_length ▸ (List.getElem?_eq_some_iff.mp hentry).1
    obtain ⟨e', hentry', hlen, -⟩ := exists_cbBuilt_entry hr
    obtain rfl : e = e' := Option.some.inj (hentry.symm.trans hentry')
    exact ⟨hr, hlen, hv⟩
  · rintro ⟨hr, rfl, rfl⟩
    exact ⟨rfl, exists_cbBuilt_entry hr⟩

/-- The lookup over the built table is the inverse of `CB_PAT` (R88). -/
theorem cbLookup_cbBuilt {bits : List Nat} (hbits : AllDigits 2 bits) (r : Nat) :
    cbLookup cbBuilt bits = some r ↔ r < 256 ∧ bits = cbPat r := by
  rw [cbLookup, cbFind_cbBuilt, eq_cbPat_iff hbits]

/-! ### Its closed form -/

/-- The closed form of R88, in the order of its checks. -/
def closedLookup (bits : List Nat) : Option Nat :=
  if bits.length % 2 = 1 ∨ bits.length < 2 ∨ bits.length > 16 then none
  else if bits.take (bits.length / 2 - 1) ≠ rep 0 (bits.length / 2 - 1) ∨ bits[bits.length / 2 - 1]? ≠ some 1 then none
  else if val 2 bits - 2 > 255 then none
  else some (val 2 bits - 2)

/-- R88's checks on the zeros and the 1 bit after them hold of a pattern. -/
theorem cbPat_checks (r : Nat) :
    (cbPat r).take ((cbPat r).length / 2 - 1) = rep 0 ((cbPat r).length / 2 - 1) ∧
    (cbPat r)[(cbPat r).length / 2 - 1]? = some 1 := by
  have hzeros : (cbPat r).length / 2 - 1 = (rep 0 (Nat.log2 (r + 2) - 1)).length := by
    rw [cbPat_length, rep, List.length_replicate]
    omega
  rw [hzeros, cbPat_eq]
  refine ⟨?_, ?_⟩
  · rw [List.take_left, rep, List.length_replicate, rep]
  · rw [List.getElem?_append_right le_rfl, Nat.sub_self, List.getElem?_cons_zero]

/-- Bits that pass the checks are `n - 1` zeros, a 1 bit and `n` bits more, so they are the pattern of their value. -/
theorem eq_cbPat_of_checks {bits : List Nat} {n : Nat} (hbits : AllDigits 2 bits) (hlen : bits.length = 2 * n)
    (hn : 1 ≤ n) (hzeros : bits.take (n - 1) = rep 0 (n - 1)) (hone : bits[n - 1]? = some 1) :
    bits = cbPat (val 2 bits - 2) := by
  obtain ⟨hlt, hget⟩ := List.getElem?_eq_some_iff.mp hone
  have hsplit : bits = rep 0 (n - 1) ++ 1 :: bits.drop n := by
    have hdrop := List.drop_eq_getElem_cons hlt
    rw [hget, Nat.sub_add_cancel hn] at hdrop
    rw [← hzeros, ← hdrop, List.take_append_drop]
  have htail : (bits.drop n).length = n := by
    rw [List.length_drop]
    omega
  have hval : val 2 bits = 2 ^ n + val 2 (bits.drop n) := by
    conv_lhs => rw [hsplit]
    rw [val_rep_append, val_cons, htail, one_mul]
  have hrest : val 2 (bits.drop n) < 2 ^ n := by
    have := val_lt 2 (bits.drop n) fun x hx => hbits x (List.mem_of_mem_drop hx)
    rwa [htail] at this
  have htwo : 2 ≤ 2 ^ n := Nat.le_self_pow (by omega) 2
  have hrank : val 2 bits = val 2 bits - 2 + 2 := by omega
  have hlog : Nat.log2 (val 2 bits - 2 + 2) = n := by
    rw [← hrank]
    exact (Nat.log2_eq_iff (by omega)).mpr ⟨by omega, by rw [pow_succ]; omega⟩
  rw [eq_cbPat_iff hbits, cbPat_length, hlog]
  exact ⟨hlen, hrank⟩

theorem closedLookup_cbPat {r : Nat} (hr : r < 256) : closedLookup (cbPat r) = some r := by
  obtain ⟨hzeros, hone⟩ := cbPat_checks r
  have hlen := cbPat_length r
  have hshort := cbPat_length_le hr
  have hbits := one_le_log2_rank r
  rw [closedLookup, if_neg (by omega), if_neg (by simp [hzeros, hone]), val_cbPat, Nat.add_sub_cancel, if_neg (by omega)]

theorem eq_cbPat_of_closedLookup {bits : List Nat} (hbits : AllDigits 2 bits) {r : Nat}
    (h : closedLookup bits = some r) : r < 256 ∧ bits = cbPat r := by
  unfold closedLookup at h
  split at h
  · cases h
  · next hlen =>
    split at h
    · cases h
    · next hchecks =>
      obtain ⟨hzeros, hone⟩ := not_or.mp hchecks
      split at h
      · cases h
      · next hrank =>
        obtain rfl := Option.some.inj h
        exact ⟨by omega, eq_cbPat_of_checks hbits (by omega) (by omega) (not_not.mp hzeros) (not_not.mp hone)⟩

/-- The bits that pass the checks of the closed form are the patterns of the 256 ranks. -/
theorem closedLookup_eq_some_iff {bits : List Nat} (hbits : AllDigits 2 bits) (r : Nat) :
    closedLookup bits = some r ↔ r < 256 ∧ bits = cbPat r := by
  refine ⟨eq_cbPat_of_closedLookup hbits, ?_⟩
  rintro ⟨hr, rfl⟩
  exact closedLookup_cbPat hr

/-- Settles O33: lookup and closed form answer the same rank for the same bits. -/
theorem lookupIsTheExactInverse : Obligations.LookupIsTheExactInverse := by
  unfold Obligations.LookupIsTheExactInverse
  intro bits hbits
  refine ⟨cbLookup_cbBuilt hbits, Option.ext fun r => ?_⟩
  exact (cbLookup_cbBuilt hbits r).trans (closedLookup_eq_some_iff hbits r).symm

/-! ### The match on growing beginnings -/

theorem val_append_digit (base : Nat) (p : List Nat) (d : Nat) : val base (p ++ [d]) = val base p * base + d := by
  simp [val_append, val_cons]

/-- The match has read `p`; its next question is the lookup of `p` and one bit more. -/
theorem cbFind_next_bit (cb : List CbEntry) (p : List Nat) (d : Nat) :
    cbFind cb (p.length + 1) (val 2 p * 2 + d) = cbLookup cb (p ++ [d]) := by
  rw [cbLookup, List.length_append, List.length_singleton, val_append_digit]

/-- The bit completes a sequence the lookup knows: the match ends there. -/
theorem cbGrow_of_known {cb : List CbEntry} {p : List Nat} {d r : Nat} (h : cbLookup cb (p ++ [d]) = some r)
    (ds : List Nat) : cbGrow cb p.length (val 2 p) (d :: ds) = some (r, ds) := by
  rw [cbGrow, cbFind_next_bit, h]

/-- The bit completes no sequence the lookup knows: the match goes on behind it. -/
theorem cbGrow_of_unknown {cb : List CbEntry} {p : List Nat} {d : Nat} (h : cbLookup cb (p ++ [d]) = none)
    (ds : List Nat) :
    cbGrow cb p.length (val 2 p) (d :: ds) = cbGrow cb (p ++ [d]).length (val 2 (p ++ [d])) ds := by
  rw [cbGrow, cbFind_next_bit, h, val_append_digit, List.length_append, List.length_singleton]

/-- Behind `p`, the match ends after the first `j + 1` bits that make it a sequence the lookup knows. -/
theorem cbGrow_eq_some_iff (cb : List CbEntry) (p ds : List Nat) (r : Nat) (rest : List Nat) :
    cbGrow cb p.length (val 2 p) ds = some (r, rest) ↔
      ∃ j, j < ds.length ∧ cbLookup cb (p ++ ds.take (j + 1)) = some r ∧ rest = ds.drop (j + 1) ∧
        ∀ k, k < j → cbLookup cb (p ++ ds.take (k + 1)) = none := by
  induction ds generalizing p with
  | nil => simp [cbGrow]
  | cons d ds ih =>
    rw [← Nat.or_exists_add_one]
    cases hknown : cbLookup cb (p ++ [d]) with
    | some q =>
      have hlater (j : Nat) : ¬ ∀ k, k < j + 1 → cbLookup cb (p ++ (d :: ds).take (k + 1)) = none := fun hnone => by
        simpa [hknown] using hnone 0 (Nat.succ_pos j)
      rw [cbGrow_of_known hknown]
      simp only [hlater]
      simp [hknown, eq_comm (a := rest)]
    | none =>
      rw [cbGrow_of_unknown hknown, ih]
      simp [Nat.forall_lt_succ_left, hknown, -Order.lt_add_one_iff]

theorem cbGrow_eq_none_iff (cb : List CbEntry) (p ds : List Nat) :
    cbGrow cb p.length (val 2 p) ds = none ↔ ∀ j, j < ds.length → cbLookup cb (p ++ ds.take (j + 1)) = none := by
  induction ds generalizing p with
  | nil => simp [cbGrow]
  | cons d ds ih =>
    rw [List.length_cons, Nat.forall_lt_succ_left]
    cases hknown : cbLookup cb (p ++ [d]) with
    | some q =>
      rw [cbGrow_of_known hknown]
      simp [hknown]
    | none =>
      rw [cbGrow_of_unknown hknown, ih]
      simp [hknown]

/-- Settles O34: `CB_NEXT` is the match with nothing read before; the claim counts its bits from 1. -/
theorem growingPrefixFindsTheShortestMatch : Obligations.GrowingPrefixFindsTheShortestMatch := by
  unfold Obligations.GrowingPrefixFindsTheShortestMatch
  intro cb bits
  refine ⟨fun r rest => (cbGrow_eq_some_iff cb [] bits r rest).trans ⟨?_, ?_⟩,
    (cbGrow_eq_none_iff cb [] bits).trans ⟨?_, ?_⟩⟩
  · rintro ⟨j, hj, hfound, hrest, hnone⟩
    refine ⟨j + 1, by omega, hj, hfound, hrest, fun k hk hkj => ?_⟩
    obtain ⟨i, rfl⟩ := Nat.exists_eq_add_of_le' hk
    exact hnone i (by omega)
  · rintro ⟨j, hj, hlen, hfound, hrest, hnone⟩
    obtain ⟨i, rfl⟩ := Nat.exists_eq_add_of_le' hj
    exact ⟨i, hlen, hfound, hrest, fun k hk => hnone (k + 1) (by omega) (by omega)⟩
  · intro hnone j hj hlen
    obtain ⟨i, rfl⟩ := Nat.exists_eq_add_of_le' hj
    exact hnone i hlen
  · exact fun hnone j hj => hnone (j + 1) (by omega) hj

end Sys2Proof.Proofs
end

section
/-! PROOFS. The Codebook commands (R86, R89, R90): `ENSURE_CB` leaves the built table whatever it found, and each command then
completes with what the built table answers. -/

namespace Sys2Proof.Proofs

-- One theorem at a time: elaborating many at once would take a thread's stack for each.
set_option Elab.async false

open Sys2Proof Sys2Proof.Machine

/-- A table that is already built is the built one (R28, R87). -/
theorem ensureCb_eq_withCodebook {s : State} (hs : s.Inv) : ensureCb s = withCodebook s := by
  cases hready : s.cbReady with
  | false => exact ensureCb_of_not_ready s hready
  | true => rw [ensureCb_of_ready s hready, withCodebook, ← hs.cbContent hready, ← hready]

theorem withCodebook_cb (s : State) : (withCodebook s).cb = cbBuilt := rfl

theorem operand_withCodebook (s : State) : operand (withCodebook s) = operand s := operand_congr rfl rfl rfl

theorem exec_cbBuild (s : State) : exec .cbBuild s = execCbBuild s := rfl

theorem exec_cbEncode (r : Nat) (s : State) : exec (.cbEncode r) s = execCbEncode r s := rfl

theorem exec_cbDecode (s : State) : exec .cbDecode s = execCbDecode s := rfl

/-- Settles O35: the command is `ENSURE_CB` and a completion without a result. -/
theorem cbBuildCompletes : Obligations.CbBuildCompletes := by
  unfold Obligations.CbBuildCompletes
  intro s hs
  rw [exec_cbBuild, execCbBuild, ensureCb_eq_withCodebook hs, complete_eq_afterSuccess]

/-- Settles O36: the pattern read from the built table is the rank's. -/
theorem cbEncodeCompletes : Obligations.CbEncodeCompletes := by
  unfold Obligations.CbEncodeCompletes
  intro s r hs hr
  simp only [exec_cbEncode, execCbEncode]
  rw [ensureCb_eq_withCodebook hs, withCodebook_cb, cbPattern_cbBuilt hr, complete_eq_afterSuccess]

theorem guardInLen_of_fits {s : State} (h : InLenFits s) (k : State → State) : guardInLen s k = k s := by
  rcases guardInLen_cases s k with ⟨hno, -⟩ | ⟨-, heq⟩
  · exact absurd h hno
  · exact heq

theorem guardInLen_of_not_fits {s : State} (h : ¬ InLenFits s) (k : State → State) :
    guardInLen s k = raise .capacity s := by
  rcases guardInLen_cases s k with ⟨-, heq⟩ | ⟨hfits, -⟩
  · exact heq
  · exact absurd hfits h

/-- On an operand of bits `CB.DECODE` answers what the built table answers: a rank with a match, or nothing. -/
theorem exec_cbDecode_of_bits {s : State} (hs : s.Inv) (hfits : InLenFits s) (hbits : AllDigits 2 (operand s)) :
    exec .cbDecode s = .next ((cbLookup cbBuilt (operand s)).elim (afterSuccess (withCodebook s) [] false)
      fun r => afterSuccess (withCodebook s) [r] true) := by
  simp only [exec_cbDecode, execCbDecode, guardInLen_of_fits hfits, ensureCb_eq_withCodebook hs, operand_withCodebook,
    withCodebook_cb]
  rw [if_neg (not_not.mpr hbits)]
  cases cbLookup cbBuilt (operand s) <;> rfl

/-- A cell that is no bit is found after the Codebook is built. -/
theorem exec_cbDecode_of_not_bits {s : State} (hs : s.Inv) (hfits : InLenFits s) (hbits : ¬ AllDigits 2 (operand s)) :
    exec .cbDecode s = .next (raise .digit (withCodebook s)) := by
  simp only [exec_cbDecode, execCbDecode, guardInLen_of_fits hfits, ensureCb_eq_withCodebook hs, operand_withCodebook]
  rw [if_pos hbits]

theorem exec_cbDecode_of_not_fits {s : State} (hfits : ¬ InLenFits s) :
    exec .cbDecode s = .next (raise .capacity s) := by
  rw [exec_cbDecode, execCbDecode, guardInLen_of_not_fits hfits]

/-- Settles O37: the lookup over the built table finds the ranks' patterns and nothing else; the two checks come before it. -/
theorem cbDecodeCompletes : Obligations.CbDecodeCompletes := by
  unfold Obligations.CbDecodeCompletes
  refine fun s hs => ⟨fun hfits => ⟨fun r hr hpat => ?_, fun hbits hno => ?_, fun hbits => ?_⟩, fun hfits => ?_⟩
  · have hbits : AllDigits 2 (operand s) := hpat ▸ cbPat_digits r
    rw [exec_cbDecode_of_bits hs hfits hbits, (cbLookup_cbBuilt hbits r).mpr ⟨hr, hpat⟩, Option.elim_some]
  · have hnone : cbLookup cbBuilt (operand s) = none := by
      refine Option.eq_none_iff_forall_ne_some.mpr fun r hfound => ?_
      obtain ⟨hr, hpat⟩ := (cbLookup_cbBuilt hbits r).mp hfound
      exact hno r hr hpat
    rw [exec_cbDecode_of_bits hs hfits hbits, hnone, Option.elim_none]
  · rw [exec_cbDecode_of_not_bits hs hfits hbits, raise_eq_afterError, ErrCause.code]
  · rw [exec_cbDecode_of_not_fits hfits, raise_eq_afterError, ErrCause.code]

end Sys2Proof.Proofs
end

section
/-! PROOFS. The FrequencyRanker (R96 to R101). The sorted (value, count) pairs are the 256 byte values sorted by `Outranks`; the
first `K` of them are those that occur, since a value that occurs outranks every value that does not. -/

namespace Sys2Proof.Proofs

open Sys2Proof Sys2Proof.Machine

/-! ### The order of the byte values -/

/-- The order of R98 on the values themselves. -/
abbrev Outranks (s : List Nat) (u v : Nat) : Prop := RanksBefore (u, freq s u) (v, freq s v)

/-- All byte values, present or not, in the order of R98. -/
def rankedValues (s : List Nat) : List Nat := (List.range 256).insertionSort (Outranks s)

theorem outranks_total (s : List Nat) : Std.Total (Outranks s) := ⟨fun u v => by dsimp only [Outranks]; omega⟩

theorem outranks_trans (s : List Nat) : IsTrans Nat (Outranks s) := ⟨fun u v w => by dsimp only [Outranks]; omega⟩

theorem rankedValues_perm (s : List Nat) : (rankedValues s).Perm (List.range 256) := List.perm_insertionSort _ _

theorem mem_rankedValues (s : List Nat) {v : Nat} : v ∈ rankedValues s ↔ v < 256 :=
  (rankedValues_perm s).mem_iff.trans List.mem_range

theorem rankedValues_nodup (s : List Nat) : (rankedValues s).Nodup := (rankedValues_perm s).nodup_iff.mpr List.nodup_range

theorem rankedValues_pairwise (s : List Nat) : (rankedValues s).Pairwise (Outranks s) := by
  have := outranks_total s
  have := outranks_trans s
  exact List.pairwise_insertionSort _ _

/-- The sort of the pairs is the sort of the values, each with its count. -/
theorem insertionSort_freqTable (s : List Nat) :
    (freqTable s).insertionSort RanksBefore = (rankedValues s).map fun v => (v, freq s v) :=
  (List.map_insertionSort (Outranks s) RanksBefore _ _ fun _ _ _ _ => Iff.rfl).symm

/-! ### The symbol list -/

/-- Where no element with the property stands behind one without it, the elements with the property are the first ones. -/
theorem take_countP_of_pairwise {α : Type} (p : α → Bool) {l : List α} (h : l.Pairwise fun a b => p b → p a) :
    l.take (l.countP p) = l.filter p := by
  induction h with
  | nil => rfl
  | @cons a l hhead _ ih =>
    by_cases ha : p a
    · rw [List.countP_cons_of_pos ha, List.take_succ_cons, ih, List.filter_cons_of_pos ha]
    · have hnone : ∀ b ∈ l, ¬ p b := fun b hb hpb => ha (hhead b hb hpb)
      rw [List.countP_cons_of_neg ha, List.filter_cons_of_neg ha, List.countP_eq_zero.mpr hnone, List.take_zero,
        List.filter_eq_nil_iff.mpr hnone]

/-- A value that occurs never stands behind one that does not. -/
theorem occurs_of_outranks {s : List Nat} {u v : Nat} (h : Outranks s u v) (hv : 0 < freq s v) : 0 < freq s u := by
  dsimp only [Outranks] at h
  omega

theorem rankOrder_eq_filter (s : List Nat) : rankOrder s = (rankedValues s).filter fun v => 0 < freq s v := by
  have hfront : (rankedValues s).Pairwise fun u v => decide (0 < freq s v) → decide (0 < freq s u) :=
    (rankedValues_pairwise s).imp fun h hv => decide_eq_true (occurs_of_outranks h (of_decide_eq_true hv))
  have hcount : (freqTable s).countP (fun p => 0 < p.2) = (rankedValues s).countP fun v => 0 < freq s v := by
    rw [freqTable, List.countP_map, (rankedValues_perm s).countP_eq]
    rfl
  rw [rankOrder, insertionSort_freqTable, hcount, ← List.map_take, take_countP_of_pairwise _ hfront, List.map_map]
  exact List.map_id _

theorem mem_rankOrder (s : List Nat) {v : Nat} : v ∈ rankOrder s ↔ v < 256 ∧ v ∈ s := by
  rw [rankOrder_eq_filter, List.mem_filter, mem_rankedValues, decide_eq_true_iff, freq, List.count_pos_iff]

theorem rankOrder_nodup (s : List Nat) : (rankOrder s).Nodup := by
  rw [rankOrder_eq_filter]
  exact (rankedValues_nodup s).filter _

theorem rankOrder_pairwise (s : List Nat) :
    (rankOrder s).Pairwise fun u v => s.count v < s.count u ∨ (s.count u = s.count v ∧ u < v) := by
  have hsorted : (rankOrder s).Pairwise (Outranks s) := by
    rw [rankOrder_eq_filter]
    exact (rankedValues_pairwise s).filter _
  refine hsorted.imp₂ (fun u v h hne => ?_) (rankOrder_nodup s)
  exact h.imp_right fun ⟨hcount, hle⟩ => ⟨hcount, lt_of_le_of_ne hle hne⟩

/-- The rank of a symbol is its index (R99). -/
theorem getElem?_rankOf {sym : List Nat} {v : Nat} (h : v ∈ sym) : sym[rankOf sym v]? = some v :=
  List.getElem?_idxOf h

/-- Settles O38. -/
theorem symbolListIsOrderedByCountThenValue : Obligations.SymbolListIsOrderedByCountThenValue := by
  unfold Obligations.SymbolListIsOrderedByCountThenValue
  intro s hbytes
  have hmem : ∀ v, v ∈ rankOrder s ↔ v ∈ s := fun v => (mem_rankOrder s).trans (and_iff_right_of_imp (hbytes v))
  exact ⟨hmem, rankOrder_nodup s, rankOrder_pairwise s, fun v hv => getElem?_rankOf ((hmem v).mpr hv)⟩

/-! ### The multiset of the input -/

theorem freqTable_of_perm {s s' : List Nat} (h : s.Perm s') : freqTable s = freqTable s' :=
  List.map_congr_left fun v _ => congrArg (Prod.mk v) (h.count_eq v)

/-- Settles O39: the symbol list is read off the counts. -/
theorem symbolListIgnoresTheInputsOrder : Obligations.SymbolListIgnoresTheInputsOrder := by
  unfold Obligations.SymbolListIgnoresTheInputsOrder
  intro s s' hperm
  rw [rankOrder, rankOrder, freqTable_of_perm hperm]

/-! ### The command -/

theorem exec_frRank (s : State) : exec .frRank s = execFrRank s := rfl

theorem exec_frRank_of_fits {s : State} (hfits : InLenFits s) :
    exec .frRank s = .next (afterSuccess s (rankOrder (operand s)) false) := by
  rw [exec_frRank, execFrRank, guardInLen_of_fits hfits, complete_eq_afterSuccess]

theorem exec_frRank_of_not_fits {s : State} (hfits : ¬ InLenFits s) : exec .frRank s = .next (afterError s 0x07) := by
  rw [exec_frRank, execFrRank, guardInLen_of_not_fits hfits, raise_eq_afterError, ErrCause.code]

theorem operand_of_inLen_zero {s : State} (h : s.inLen = 0) : operand s = [] := by
  rw [← List.length_eq_zero_iff, operand_length, h]
  rfl

/-- No value occurs in the empty input (R100). -/
theorem rankOrder_nil : rankOrder [] = [] :=
  List.eq_nil_iff_forall_not_mem.mpr fun _ hv => List.not_mem_nil ((mem_rankOrder []).mp hv).2

/-- Settles O40: the symbol list always fits, so the capacity check is the only one. -/
theorem frRankCompletes : Obligations.FrRankCompletes := by
  unfold Obligations.FrRankCompletes
  refine fun s => ⟨fun hfits => ⟨exec_frRank_of_fits hfits, fun hempty => ?_, rankOrder_length_le _⟩, exec_frRank_of_not_fits⟩
  rw [exec_frRank_of_fits hfits, operand_of_inLen_zero hempty, rankOrder_nil]

end Sys2Proof.Proofs
end

section
/-! PROOFS. The two lists of the dictionary codec that are no numerals: the differences of a symbol list with their minimum taken
off, and the running sum that undoes it (R106, R107, R117). -/

namespace Sys2Proof.Proofs

open Sys2Proof Sys2Proof.Machine

/-! ### Differences and their minimum -/

@[simp] theorem deltas_length (prev : Nat) (s : List Nat) : (deltas prev s).length = s.length := by
  induction s generalizing prev with
  | nil => rfl
  | cons v vs ih => rw [deltas, List.length_cons, ih, List.length_cons]

theorem deltas_lt (prev : Nat) (s : List Nat) : IsBytes (deltas prev s) := by
  induction s generalizing prev with
  | nil => exact fun _ h => absurd h List.not_mem_nil
  | cons v vs ih => exact List.forall_mem_cons.mpr ⟨Nat.mod_lt _ (by decide), ih v⟩

/-- R106: the difference at `i` is that of the element and the one before it, modulo 256. -/
theorem deltas_getD (prev : Nat) (s : List Nat) {i : Nat} (hi : i < s.length) :
    (deltas prev s).getD i 0 = (s.getD i 0 + 256 - if i = 0 then prev else s.getD (i - 1) 0) % 256 := by
  induction s generalizing prev i with
  | nil => exact absurd hi (Nat.not_lt_zero i)
  | cons v vs ih =>
    cases i with
    | zero => rfl
    | succ i =>
      rw [deltas, List.getD_cons_succ, ih v (Nat.lt_of_succ_lt_succ hi), List.getD_cons_succ, if_neg (Nat.succ_ne_zero i),
        Nat.add_sub_cancel]
      cases i <;> rfl

/-- R107: the shift is by the minimum, which is one of the differences. -/
theorem exists_minShift {d : List Nat} (hd : d ≠ []) :
    ∃ m ∈ d, (∀ y ∈ d, m ≤ y) ∧ minShift d = m :: d.map (· - m) := by
  obtain ⟨m, hm⟩ := Option.isSome_iff_exists.mp (List.isSome_min?_of_ne_nil hd)
  obtain ⟨hmem, hle⟩ := List.min?_eq_some_iff.mp hm
  exact ⟨m, hmem, hle, by simp only [minShift, hm, Option.getD_some]⟩

theorem deltas_ne_nil {s : List Nat} (hs : s ≠ []) (prev : Nat) : deltas prev s ≠ [] := by
  rw [← List.length_pos_iff, deltas_length]
  exact List.length_pos_iff.mpr hs

/-- The difference is that of the integers, modulo 256. -/
theorem delta_eq_emod (v : Nat) {prev : Nat} (hprev : prev ≤ 256) :
    (((v + 256 - prev) % 256 : Nat) : Int) = ((v : Int) - prev) % 256 := by
  rw [Int.natCast_mod, Nat.cast_sub (Nat.le_add_left_of_le hprev), Nat.cast_add, add_sub_right_comm]
  exact Int.add_emod_right _ _

theorem getD_lt {s : List Nat} (hs : IsBytes s) (i : Nat) : s.getD i 0 < 256 := by
  rcases Nat.lt_or_ge i s.length with hi | hi
  · exact List.getD_eq_getElem s 0 hi ▸ hs _ (List.getElem_mem hi)
  · rw [List.getD_eq_default s 0 hi]; decide

/-- Settles O41: the minimum is one of the differences, so it leaves 0 there and comes off the others without a wrap. -/
theorem shiftedDeltasAreTheRules : Obligations.ShiftedDeltasAreTheRules := by
  unfold Obligations.ShiftedDeltasAreTheRules
  intro s hs hne
  obtain ⟨m, hmem, hle, hshift⟩ := exists_minShift (deltas_ne_nil hne 0)
  refine ⟨m, _, hshift, by rw [List.length_map, deltas_length], List.mem_map.mpr ⟨m, hmem, Nat.sub_self m⟩, fun i hi => ?_⟩
  have hdelta : ((deltas 0 s).map (· - m)).getD i 0 + m = (deltas 0 s).getD i 0 := by
    have hi' : i < (deltas 0 s).length := by rwa [deltas_length]
    rw [List.getD_eq_getElem _ 0 (by rwa [List.length_map]), List.getD_eq_getElem _ 0 hi', List.getElem_map,
      Nat.sub_add_cancel (hle _ (List.getElem_mem hi'))]
  have hprev : (if i = 0 then 0 else s.getD (i - 1) 0) < 256 := by
    split
    · decide
    · exact getD_lt hs _
  rw [hdelta, deltas_getD 0 s hi]
  refine ⟨Nat.mod_lt _ (by decide), (delta_eq_emod _ hprev.le).trans ?_⟩
  rw [Nat.cast_ite, Nat.cast_zero]

/-! ### The running sum -/

/-- R117: element `j` of the running sum is the sum of the first `j + 1` elements, the shift added back to each. -/
theorem integrate_eq_map_sum (m acc : Nat) (x : List Nat) :
    integrate m acc x = (List.range x.length).map fun j => (acc + ((x.take (j + 1)).map (· + m)).sum) % 256 := by
  induction x generalizing acc with
  | nil => rfl
  | cons y ys ih =>
    rw [integrate, ih, List.length_cons, List.range_succ_eq_map, List.map_cons, List.map_map]
    congr 1
    · exact Nat.add_mod_mod acc (y + m) 256
    · refine List.map_congr_left fun j _ => ?_
      rw [Function.comp_apply, List.take_succ_cons, List.map_cons, List.sum_cons,
        Nat.mod_add_mod, Nat.add_right_comm, Nat.add_mod_mod, Nat.add_right_comm, Nat.add_assoc]

theorem unshift_cons (m : Nat) (x : List Nat) : unshift (m :: x) = symbolsOf m x := by
  simp only [unshift, symbolsOf, integrate_eq_map_sum, Nat.zero_add]

/-- Adding a difference to the element before it gives the element. -/
theorem add_delta_mod {prev v : Nat} (hprev : prev < 256) (hv : v < 256) : (prev + (v + 256 - prev) % 256) % 256 = v := by
  rw [Nat.add_mod_mod, Nat.add_sub_cancel' (Nat.le_add_left_of_le hprev.le), Nat.add_mod_right, Nat.mod_eq_of_lt hv]

/-- Summing the shifted differences from the element before them gives the list back. -/
theorem integrate_deltas (m prev : Nat) {s : List Nat} (hs : IsBytes s) (hprev : prev < 256)
    (hm : ∀ d ∈ deltas prev s, m ≤ d) : integrate m prev ((deltas prev s).map (· - m)) = s := by
  induction s generalizing prev with
  | nil => rfl
  | cons v vs ih =>
    obtain ⟨hv, hvs⟩ := List.forall_mem_cons.mp hs
    rw [deltas] at hm ⊢
    obtain ⟨hmv, hmvs⟩ := List.forall_mem_cons.mp hm
    rw [List.map_cons, integrate, Nat.sub_add_cancel hmv, Nat.mod_mod, add_delta_mod hprev hv, ih v hvs hv hmvs]

theorem unshift_minShift {s : List Nat} (hs : IsBytes s) (hne : s ≠ []) : unshift (minShift (deltas 0 s)) = s := by
  obtain ⟨m, -, hle, hshift⟩ := exists_minShift (deltas_ne_nil hne 0)
  rw [hshift]
  exact integrate_deltas m 0 hs (by decide) hle

theorem minShift_ne_nil (d : List Nat) : minShift d ≠ [] := List.cons_ne_nil _ _

theorem minShift_lt {d : List Nat} (hd : IsBytes d) : IsBytes (minShift d) := by
  rcases eq_or_ne d [] with rfl | hne
  · decide
  · obtain ⟨m, hmem, -, hshift⟩ := exists_minShift hne
    rw [hshift]
    refine List.forall_mem_cons.mpr ⟨hd m hmem, List.forall_mem_map.mpr fun y hy => ?_⟩
    exact (Nat.sub_le y m).trans_lt (hd y hy)

end Sys2Proof.Proofs
end

section
/-! PROOFS. The ternary numeral between the two functions of the dictionary codec (R108, R114 to R116). Splitting at the delimiters
and writing groups behind delimiters are inverse, so a numeral that starts with the delimiter has its groups and no others. -/

namespace Sys2Proof.Proofs

open Sys2Proof Sys2Proof.Machine

/-! ### Splitting at the delimiters -/

theorem splitGroups_delimiter (t : List Nat) :
    splitGroups (2 :: t) = ([], (splitGroups t).1 :: (splitGroups t).2) := by rw [splitGroups, if_pos rfl]

theorem splitGroups_digit {d : Nat} (hd : d ≠ 2) (t : List Nat) :
    splitGroups (d :: t) = (d :: (splitGroups t).1, (splitGroups t).2) := by rw [splitGroups, if_neg hd]

/-- Digits before the first delimiter stay before it. -/
theorem splitGroups_append {g : List Nat} (hg : AllDigits 2 g) (t : List Nat) :
    splitGroups (g ++ t) = (g ++ (splitGroups t).1, (splitGroups t).2) := by
  induction g with
  | nil => rfl
  | cons d ds ih =>
    obtain ⟨hd, hds⟩ := List.forall_mem_cons.mp hg
    rw [List.cons_append, splitGroups_digit hd.ne, ih hds, List.cons_append]

/-- Splitting gives back the groups that were written behind delimiters. -/
theorem splitGroups_flatMap {groups : List (List Nat)} (h : ∀ g ∈ groups, AllDigits 2 g) :
    splitGroups (groups.flatMap (2 :: ·)) = ([], groups) := by
  induction groups with
  | nil => rfl
  | cons g gs ih =>
    obtain ⟨hg, hgs⟩ := List.forall_mem_cons.mp h
    rw [List.flatMap_cons, List.cons_append, splitGroups_delimiter, splitGroups_append hg, ih hgs, List.append_nil]

/-- The parts with their delimiters are the numeral. -/
theorem append_flatMap_splitGroups (t : List Nat) :
    (splitGroups t).1 ++ (splitGroups t).2.flatMap (2 :: ·) = t := by
  induction t with
  | nil => rfl
  | cons d ds ih =>
    by_cases hd : d = 2
    · subst hd
      rw [splitGroups_delimiter, List.nil_append, List.flatMap_cons, List.cons_append, ih]
    · rw [splitGroups_digit hd, List.cons_append, ih]

/-- No part of a ternary numeral holds a delimiter. -/
theorem splitGroups_digits {t : List Nat} (ht : AllDigits 3 t) :
    AllDigits 2 (splitGroups t).1 ∧ ∀ g ∈ (splitGroups t).2, AllDigits 2 g := by
  induction t with
  | nil => exact ⟨fun _ h => absurd h List.not_mem_nil, fun _ h => absurd h List.not_mem_nil⟩
  | cons d ds ih =>
    obtain ⟨hd, hds⟩ := List.forall_mem_cons.mp ht
    obtain ⟨hfirst, hgroups⟩ := ih hds
    by_cases hdelim : d = 2
    · subst hdelim
      rw [splitGroups_delimiter]
      exact ⟨fun _ h => absurd h List.not_mem_nil, List.forall_mem_cons.mpr ⟨hfirst, hgroups⟩⟩
    · rw [splitGroups_digit hdelim]
      exact ⟨List.forall_mem_cons.mpr ⟨Nat.lt_of_le_of_ne (Nat.le_of_lt_succ hd) hdelim, hfirst⟩, hgroups⟩

theorem splitGroups_count (t : List Nat) : (splitGroups t).2.length = t.count 2 := by
  induction t with
  | nil => rfl
  | cons d ds ih =>
    by_cases hd : d = 2
    · subst hd
      rw [splitGroups_delimiter, List.length_cons, ih, List.count_cons_self]
    · rw [splitGroups_digit hd, ih, List.count_cons_of_ne hd]

/-- A numeral that starts with the delimiter has the groups that `splitGroups` opens. -/
theorem groupsOf_splitGroups {t : List Nat} (ht : AllDigits 3 t) (hhead : t.head? = some 2) :
    GroupsOf t (splitGroups t).2 := by
  obtain ⟨ds, rfl⟩ : ∃ ds, t = 2 :: ds := List.head?_eq_some_iff.mp hhead
  have hsplit := append_flatMap_splitGroups (2 :: ds)
  have hdigits := (splitGroups_digits ht).2
  rw [splitGroups_delimiter] at hsplit hdigits ⊢
  exact ⟨hsplit.symm, List.cons_ne_nil _ _, hdigits⟩

/-- Those groups are the only ones. -/
theorem splitGroups_of_groupsOf {t : List Nat} {groups : List (List Nat)} (h : GroupsOf t groups) :
    t.head? = some 2 ∧ (splitGroups t).2 = groups := by
  obtain ⟨rfl, hne, hdigits⟩ := h
  refine ⟨?_, by rw [splitGroups_flatMap hdigits]⟩
  cases groups with
  | nil => exact absurd rfl hne
  | cons g gs => rfl

/-- Settles O42. -/
theorem everyDelimiterOpensOneGroup : Obligations.EveryDelimiterOpensOneGroup := by
  unfold Obligations.EveryDelimiterOpensOneGroup
  exact fun t ht hhead => ⟨groupsOf_splitGroups ht hhead, splitGroups_count t⟩

/-! ### The rendering -/

theorem bin_digits (v : Nat) : AllDigits 2 (bin v) := canon_digits 2 v le_rfl

theorem val_bin (v : Nat) : val 2 (bin v) = v := val_canon 2 v le_rfl

theorem renderTernary_digits (x : List Nat) : AllDigits 3 (renderTernary x) := by
  intro d hd
  obtain ⟨v, -, hmem⟩ := List.mem_flatMap.mp hd
  rcases List.mem_cons.mp hmem with rfl | hbin
  · decide
  · exact (bin_digits v d hbin).trans (by decide)

/-- The groups of a rendering are the binary renderings of its elements. -/
theorem groupsOf_renderTernary {x : List Nat} (hx : x ≠ []) : GroupsOf (renderTernary x) (x.map bin) :=
  ⟨by rw [renderTernary, List.flatMap_map], mt List.map_eq_nil_iff.mp hx, List.forall_mem_map.mpr fun v _ => bin_digits v⟩

/-- Packing a rendering in bytes loses nothing: its first digit is not 0. -/
theorem canon_val_renderTernary {x : List Nat} (hx : x ≠ []) :
    canon 3 (val 3 (renderTernary x)) = renderTernary x := by
  have hhead : (renderTernary x).head? = some 2 := (splitGroups_of_groupsOf (groupsOf_renderTernary hx)).1
  refine canon_val 3 (by decide) _ (renderTernary_digits x) (by rw [hhead]; decide) fun hnil => ?_
  rw [hnil] at hhead
  cases hhead

end Sys2Proof.Proofs
end

section
/-! PROOFS. The functions `DICT_SER` and `DICT_DES` (R106 to R120): what each answers, in the terms of the claims, and the round trip
between them. -/

namespace Sys2Proof.Proofs

open Sys2Proof Sys2Proof.Machine

theorem dictSerialize_eq_dictPayloadOf (s : List Nat) : dictSerialize s = dictPayloadOf s :=
  convert_eq_canon _ 3 256 (by decide) (by decide) (renderTernary_digits _)

theorem dictPayloadOf_lt (s : List Nat) : IsBytes (dictPayloadOf s) := canon_digits 256 _ (by decide)

/-- The payload carries the rendering itself. -/
theorem ternaryOf_dictPayloadOf (s : List Nat) :
    ternaryOf (dictPayloadOf s) = renderTernary (minShift (deltas 0 s)) := by
  rw [ternaryOf, dictPayloadOf, val_canon 256 _ (by decide), canon_val_renderTernary (minShift_ne_nil _)]

theorem ternaryOf_digits (p : List Nat) : AllDigits 3 (ternaryOf p) := canon_digits 3 _ (by decide)

section
variable {p : List Nat} (hp : IsBytes p)
include hp

theorem convert_eq_ternaryOf : convert p 256 3 = ternaryOf p := convert_eq_canon p 256 3 (by decide) (by decide) hp

/-- R118, the first case. -/
theorem dictDeserialize_of_head (hhead : (ternaryOf p).head? ≠ some 2) : dictDeserialize p = .error .corrupt := by
  rw [dictDeserialize, convert_eq_ternaryOf hp, if_pos hhead]

/-- With the groups known, `DICT_DES` is the check of their values and the running sum (R116 to R118). -/
theorem dictDeserialize_of_groupsOf {groups : List (List Nat)} (h : GroupsOf (ternaryOf p) groups) :
    dictDeserialize p =
      if ¬ AllDigits 256 (groups.map (val 2)) then .error .corrupt else .ok (unshift (groups.map (val 2))) := by
  obtain ⟨hhead, hgroups⟩ := splitGroups_of_groupsOf h
  rw [dictDeserialize, convert_eq_ternaryOf hp, if_neg (not_not.mpr hhead), hgroups]

/-- R114 to R117: what a payload holds is what `DICT_DES` answers. -/
theorem dictDeserialize_of_payloadHolds {sym : List Nat} (h : PayloadHolds p sym) : dictDeserialize p = .ok sym := by
  obtain ⟨g, groups, hgroups, hbytes, rfl⟩ := h
  rw [dictDeserialize_of_groupsOf hp hgroups, if_neg (not_not.mpr (List.forall_mem_map.mpr hbytes)), List.map_cons,
    unshift_cons]

/-- R118: the two cases of a corrupt payload, and no other. -/
theorem dictDeserialize_eq_corrupt_iff : dictDeserialize p = .error .corrupt ↔
    (ternaryOf p).head? ≠ some 2 ∨ ∃ groups, GroupsOf (ternaryOf p) groups ∧ ∃ g ∈ groups, val 2 g > 255 := by
  by_cases hhead : (ternaryOf p).head? = some 2
  · have hsplit := groupsOf_splitGroups (ternaryOf_digits p) hhead
    rw [dictDeserialize_of_groupsOf hp hsplit, or_iff_right (not_not.mpr hhead)]
    constructor
    · intro hcorrupt
      split at hcorrupt
      · next hbig =>
        obtain ⟨g, hg, hval⟩ : ∃ g ∈ (splitGroups (ternaryOf p)).2, ¬ val 2 g < 256 := by
          simpa [AllDigits] using hbig
        exact ⟨_, hsplit, g, hg, by omega⟩
      · cases hcorrupt
    · rintro ⟨groups, hgroups, g, hg, hval⟩
      rw [(splitGroups_of_groupsOf hgroups).2]
      refine if_pos fun hsmall => ?_
      have := List.forall_mem_map.mp hsmall g hg
      omega
  · exact iff_of_true (dictDeserialize_of_head hp hhead) (.inl hhead)

end

/-- R114 to R117: a serialised list is what its payload holds. -/
theorem dictDeserialize_dictPayloadOf {s : List Nat} (hs : IsBytes s) (hne : s ≠ []) :
    dictDeserialize (dictPayloadOf s) = .ok s := by
  have hgroups : GroupsOf (ternaryOf (dictPayloadOf s)) ((minShift (deltas 0 s)).map bin) := by
    rw [ternaryOf_dictPayloadOf]
    exact groupsOf_renderTernary (minShift_ne_nil _)
  have hvals : ((minShift (deltas 0 s)).map bin).map (val 2) = minShift (deltas 0 s) := by
    rw [List.map_map]
    exact List.map_id'' val_bin _
  rw [dictDeserialize_of_groupsOf (dictPayloadOf_lt s) hgroups, hvals,
    if_neg (not_not.mpr (minShift_lt (deltas_lt 0 s))), unshift_minShift hs hne]

/-- Settles O43: the payload carries the rendering, its groups are the shifted differences, and their running sum is the list; `08`
and `3C` are the numerals `22` and `2020`. -/
theorem dictionaryRoundTrip : Obligations.DictionaryRoundTrip := by
  unfold Obligations.DictionaryRoundTrip
  refine ⟨fun s hs hne => ?_, by decide +kernel, by decide +kernel⟩
  rw [dictSerialize_eq_dictPayloadOf, dictDeserialize_dictPayloadOf hs hne]

end Sys2Proof.Proofs
end

section
/-! PROOFS. The dictionary commands (R105, R109, R111, R113 to R118, R159): the operand of a command is bytes, so each completes with
what its function answers, or with the error of R160's order. -/

namespace Sys2Proof.Proofs

open Sys2Proof Sys2Proof.Machine

/-! ### Delivering a result -/

theorem deliver_of_fits {r : List Nat} (h : r.length ≤ 65536) (s : State) : deliver r s = afterSuccess s r false := by
  rcases deliver_cases r s with ⟨-, heq⟩ | ⟨hlong, -⟩
  · rw [heq, complete_eq_afterSuccess]
  · exact absurd h (Nat.not_le.mpr hlong)

theorem deliver_of_not_fits {r : List Nat} (h : r.length > 65536) (s : State) : deliver r s = afterError s 0x07 := by
  rcases deliver_cases r s with ⟨hfits, -⟩ | ⟨-, heq⟩
  · exact absurd h (Nat.not_lt.mpr hfits)
  · rw [heq, raise_eq_afterError, ErrCause.code]

theorem code_eq_corrupt_iff (e : ErrCause) : e.code = 0x06 ↔ e = .corrupt := by cases e <;> decide

/-- No result and no other error looks like a corrupt operand: `ERRCODE` tells them apart. -/
theorem deliverOrRaise_eq_corrupt_iff (r : Except ErrCause (List Nat)) (s : State) :
    deliverOrRaise r s = afterError s 0x06 ↔ r = .error .corrupt := by
  constructor
  · intro h
    have hcode : (deliverOrRaise r s).errcode = 0x06 := by rw [h, afterError]
    rcases deliverOrRaise_cases r s with ⟨out, -, heq⟩ | ⟨e, rfl, heq⟩
    · rcases deliver_cases out s with ⟨-, hdeliver⟩ | ⟨-, hdeliver⟩ <;> rw [heq, hdeliver] at hcode
      · exact absurd hcode (by decide : (0 : BitVec 8) ≠ 0x06)
      · exact absurd hcode (by decide : (0x07 : BitVec 8) ≠ 0x06)
    · rw [heq] at hcode
      rw [(code_eq_corrupt_iff e).mp hcode]
  · rintro rfl
    exact raise_eq_afterError .corrupt s

/-! ### `DICT.SER` -/

theorem exec_dictSer (s : State) : exec .dictSer s = execDictSer s := rfl

theorem exec_dictSer_of_empty {s : State} (hfits : InLenFits s) (hempty : s.inLen = 0) :
    exec .dictSer s = .next (afterError s 0x04) := by
  rw [exec_dictSer, execDictSer, guardInLen_of_fits hfits, if_pos hempty, raise_eq_afterError, ErrCause.code]

theorem exec_dictSer_of_nonempty {s : State} (hfits : InLenFits s) (hne : s.inLen ≠ 0) :
    exec .dictSer s = .next (deliver (dictPayloadOf (operand s)) s) := by
  rw [exec_dictSer, execDictSer, guardInLen_of_fits hfits, if_neg hne, dictSerialize_eq_dictPayloadOf]

/-- Settles O44. -/
theorem dictSerCompletes : Obligations.DictSerCompletes := by
  unfold Obligations.DictSerCompletes
  intro s hfits hne hlen
  rw [exec_dictSer_of_nonempty hfits hne, deliver_of_fits hlen]

/-- Settles O45: the empty list is found before the payload is made. -/
theorem dictSerErrorsInOrder : Obligations.DictSerErrorsInOrder := by
  unfold Obligations.DictSerErrorsInOrder
  intro s hfits herr
  by_cases hempty : s.inLen = 0
  · rw [exec_dictSer_of_empty hfits hempty, if_pos hempty]
  · rw [exec_dictSer_of_nonempty hfits hempty, deliver_of_not_fits (herr.resolve_left hempty), if_neg hempty]

/-! ### `DICT.DES` -/

theorem exec_dictDes (s : State) : exec .dictDes s = execDictDes s := rfl

theorem exec_dictDes_of_fits {s : State} (hfits : InLenFits s) :
    exec .dictDes s = .next (deliverOrRaise (dictDeserialize (operand s)) s) := by
  rw [exec_dictDes, execDictDes, guardInLen_of_fits hfits]

/-- Settles O46: the symbol list is delivered behind the check of its length. -/
theorem dictDesCompletes : Obligations.DictDesCompletes := by
  unfold Obligations.DictDesCompletes
  intro s sym hfits hholds
  have hexec : exec .dictDes s = .next (deliver sym s) := by
    rw [exec_dictDes_of_fits hfits, dictDeserialize_of_payloadHolds (operand_lt s) hholds, deliverOrRaise]
  rw [hexec]
  exact ⟨fun hlen => congrArg _ (deliver_of_fits hlen s), fun hlen => congrArg _ (deliver_of_not_fits hlen s)⟩

/-- Settles O47: only a corrupt payload gives the code 6, and the two cases are those in which `DICT_DES` finds one. -/
theorem dictDesIsCorruptInTwoCases : Obligations.DictDesIsCorruptInTwoCases := by
  unfold Obligations.DictDesIsCorruptInTwoCases
  intro s hfits
  rw [exec_dictDes_of_fits hfits, Host.Outcome.next.injEq, deliverOrRaise_eq_corrupt_iff,
    dictDeserialize_eq_corrupt_iff (operand_lt s)]

end Sys2Proof.Proofs
end

section
/-! PROOFS. The error completions (R151, R152, R159, R161, R163): a command's answer is one completion of the state it found, the
Codebook built or not, and the errors of a command are those of its checks and of the functions it runs. -/

namespace Sys2Proof.Proofs

open Sys2Proof Sys2Proof.Machine

/-! ### What an error completion changes -/

/-- R87: `ENSURE_CB` writes `CB_READY` and `CB` and nothing else. -/
theorem ensureCb_frame (s : State) : ensureCb s = { s with cbReady := (ensureCb s).cbReady, cb := (ensureCb s).cb } := by
  cases hready : s.cbReady with
  | false => rw [ensureCb_of_not_ready s hready]
  | true => rw [ensureCb_of_ready s hready]

/-- R152: a completion that sets `ERR` is the error completion with the code it leaves. -/
theorem eq_afterError_of_completionOf {s t : State} (h : CompletionOf s t) (herr : t.err = true) :
    t = afterError { s with cbReady := t.cbReady, cb := t.cb } t.errcode := by
  obtain ⟨cause, out, found, rfl, -, hempty, -⟩ := h
  obtain ⟨rfl, rfl⟩ := hempty herr
  obtain ⟨e, rfl⟩ := Option.isSome_iff_exists.mp herr
  exact raise_eq_afterError e s

/-- Settles O18: an error completion keeps the fields of the state it completes, which is the state the command found but for the
Codebook. -/
theorem errorCompletionChangesNothingElse : Obligations.ErrorCompletionChangesNothingElse := by
  unfold Obligations.ErrorCompletionChangesNothingElse
  intro i s t hexec herr
  obtain ⟨s', t', hexec', hcompletion, hfound⟩ := exec_completes i s
  obtain rfl : t' = t := Host.Outcome.next.inj (hexec'.symm.trans hexec)
  have hframe : s' = { s with cbReady := s'.cbReady, cb := s'.cb } := by
    rcases hfound with ⟨-, rfl⟩ | ⟨-, rfl⟩
    · exact ensureCb_frame s
    · rfl
  have herror := eq_afterError_of_completionOf hcompletion herr
  rwa [hframe] at herror

/-! ### Which errors an operation reports -/

/-- `t` is left without an error, or with one of `codes` (R26, R151). -/
def ReportsOnly (codes : List (BitVec 8)) (t : State) : Prop :=
  t.err = false ∧ t.errcode = 0 ∨ t.err = true ∧ t.errcode ∈ codes

section
variable {codes : List (BitVec 8)}

theorem reportsOnly_complete (out : List Nat) (found : Bool) (s : State) : ReportsOnly codes (complete out found s) :=
  .inl ⟨complete_err out found s, complete_errcode out found s⟩

theorem reportsOnly_raise {e : ErrCause} (he : e.code ∈ codes) (s : State) : ReportsOnly codes (raise e s) :=
  .inr ⟨raise_err e s, he⟩

theorem reportsOnly_deliver (hcapacity : ErrCause.capacity.code ∈ codes) (r : List Nat) (s : State) :
    ReportsOnly codes (deliver r s) := by
  rcases deliver_cases r s with ⟨-, heq⟩ | ⟨-, heq⟩ <;> rw [heq]
  · exact reportsOnly_complete r false s
  · exact reportsOnly_raise hcapacity s

theorem reportsOnly_deliverOrRaise (hcapacity : ErrCause.capacity.code ∈ codes) {r : Except ErrCause (List Nat)}
    (herror : ∀ e, r = .error e → e.code ∈ codes) (s : State) : ReportsOnly codes (deliverOrRaise r s) := by
  rcases deliverOrRaise_cases r s with ⟨out, -, heq⟩ | ⟨e, hr, heq⟩ <;> rw [heq]
  · exact reportsOnly_deliver hcapacity out s
  · exact reportsOnly_raise (herror e hr) s

theorem reportsOnly_guardInLen (hcapacity : ErrCause.capacity.code ∈ codes) {s : State} {k : State → State}
    (hk : ReportsOnly codes (k s)) : ReportsOnly codes (guardInLen s k) := by
  rcases guardInLen_cases s k with ⟨-, heq⟩ | ⟨-, heq⟩ <;> rw [heq]
  · exact reportsOnly_raise hcapacity s
  · exact hk

end

/-! ### Which errors a function answers -/

theorem eq_corrupt_of_dictDeserialize {bytes : List Nat} {e : ErrCause} (h : dictDeserialize bytes = .error e) :
    e = .corrupt := by
  simp only [dictDeserialize] at h
  split at h
  · exact (Except.error.inj h).symm
  · split at h
    · exact (Except.error.inj h).symm
    · cases h

theorem eq_corrupt_of_greedyParse {cb : List CbEntry} {sym : List Nat} {fuel : Nat} {bits : List Nat} {e : ErrCause}
    (h : greedyParse cb sym fuel bits = .error e) : e = .corrupt := by
  induction fuel, bits using greedyParse.induct cb sym with
  | case1 => simp [greedyParse] at h
  | case2 => simpa [greedyParse, eq_comm] using h
  | case3 fuel bit bits hnext => simpa [greedyParse, hnext, eq_comm] using h
  | case4 fuel bit bits r rest hnext hsym => simpa [greedyParse, hnext, hsym, eq_comm] using h
  | case5 fuel bit bits r rest hnext v hsym ih =>
    cases hrest : greedyParse cb sym fuel rest with
    | ok out => simp [greedyParse, hnext, hsym, hrest, Except.map] at h
    | error e' =>
      obtain rfl : e' = e := by simpa [greedyParse, hnext, hsym, hrest, Except.map] using h
      exact ih hrest

theorem eq_corrupt_of_decodePayloads {cb : List CbEntry} {lz : Nat} {bitPayload dictPayload : List Nat} {e : ErrCause}
    (h : decodePayloads cb lz bitPayload dictPayload = .error e) : e = .corrupt := by
  cases hdict : dictDeserialize dictPayload with
  | error e' =>
    obtain rfl : e' = e := by simpa [decodePayloads, hdict] using h
    exact eq_corrupt_of_dictDeserialize hdict
  | ok sym =>
    rw [decodePayloads, hdict] at h
    exact eq_corrupt_of_greedyParse h

/-- R140 to R144: whatever is wrong with a frame, it is corrupt. -/
theorem eq_corrupt_of_egcDecode {cb : List CbEntry} {frame : List Nat} {e : ErrCause} (h : egcDecode cb frame = .error e) :
    e = .corrupt := by
  unfold egcDecode at h
  split at h
  · dsimp only at h
    split at h
    · exact (Except.error.inj h).symm
    · exact eq_corrupt_of_decodePayloads h
  · exact (Except.error.inj h).symm

theorem eq_dictOverflow_of_assembleFrame {bits sym : List Nat} {e : ErrCause} (h : assembleFrame bits sym = .error e) :
    e = .dictOverflow := by
  simp only [assembleFrame] at h
  split at h
  · exact (Except.error.inj h).symm
  · cases h

/-- R128, R133: the encoder's own errors are the empty input and a dictionary whose length needs more than a byte. -/
theorem empty_or_dictOverflow_of_egcEncode {cb : List CbEntry} {input : List Nat} {e : ErrCause}
    (h : egcEncode cb input = .error e) : e = .empty ∨ e = .dictOverflow := by
  simp only [egcEncode] at h
  split at h
  · exact .inl (Except.error.inj h).symm
  · exact .inr (eq_dictOverflow_of_assembleFrame h)

/-! ### Which errors a command reports -/

theorem reportsOnly_of_execRadixConvert {a b : Nat} {s t : State} (h : execRadixConvert a b s = .next t) :
    ReportsOnly [0x02, 0x03, 0x07] t := by
  obtain rfl := Host.Outcome.next.inj h
  refine reportsOnly_guardInLen (by decide) ?_
  split
  · exact reportsOnly_raise (by decide) s
  · split
    · exact reportsOnly_raise (by decide) s
    · exact reportsOnly_deliver (by decide) _ s

theorem reportsOnly_of_execCbDecode {s t : State} (h : execCbDecode s = .next t) : ReportsOnly [0x03, 0x07] t := by
  obtain rfl := Host.Outcome.next.inj h
  refine reportsOnly_guardInLen (by decide) ?_
  dsimp only
  split
  · exact reportsOnly_raise (by decide) _
  · split
    · exact reportsOnly_complete _ true _
    · exact reportsOnly_complete _ false _

theorem reportsOnly_of_execFrRank {s t : State} (h : execFrRank s = .next t) : ReportsOnly [0x07] t := by
  obtain rfl := Host.Outcome.next.inj h
  exact reportsOnly_guardInLen (by decide) (reportsOnly_complete _ false s)

theorem reportsOnly_of_execDictSer {s t : State} (h : execDictSer s = .next t) : ReportsOnly [0x04, 0x07] t := by
  obtain rfl := Host.Outcome.next.inj h
  refine reportsOnly_guardInLen (by decide) ?_
  split
  · exact reportsOnly_raise (by decide) s
  · exact reportsOnly_deliver (by decide) _ s

theorem reportsOnly_of_execDictDes {s t : State} (h : execDictDes s = .next t) : ReportsOnly [0x06, 0x07] t := by
  obtain rfl := Host.Outcome.next.inj h
  refine reportsOnly_guardInLen (by decide) (reportsOnly_deliverOrRaise (by decide) (fun e he => ?_) s)
  rw [eq_corrupt_of_dictDeserialize he]
  decide

theorem reportsOnly_of_execEgcEnc {s t : State} (h : execEgcEnc s = .next t) : ReportsOnly [0x04, 0x05, 0x07] t := by
  obtain rfl := Host.Outcome.next.inj h
  refine reportsOnly_guardInLen (by decide) (reportsOnly_deliverOrRaise (by decide) (fun e he => ?_) _)
  rcases empty_or_dictOverflow_of_egcEncode he with rfl | rfl <;> decide

theorem reportsOnly_of_execEgcDec {s t : State} (h : execEgcDec s = .next t) : ReportsOnly [0x06, 0x07] t := by
  obtain rfl := Host.Outcome.next.inj h
  refine reportsOnly_guardInLen (by decide) (reportsOnly_deliverOrRaise (by decide) (fun e he => ?_) _)
  rw [eq_corrupt_of_egcDecode he]
  decide

/-- Settles O19: the checks and functions of each command raise the errors of its row alone; `CB.BUILD` and `CB.ENCODE` have
none. -/
theorem commandsReportOnlyTheErrorsOfTheMatrix : Obligations.CommandsReportOnlyTheErrorsOfTheMatrix := by
  unfold Obligations.CommandsReportOnlyTheErrorsOfTheMatrix
  intro i s t hexec
  cases i with
  | radixConvert a b => exact reportsOnly_of_execRadixConvert hexec
  | cbBuild =>
    obtain rfl := Host.Outcome.next.inj hexec
    exact reportsOnly_complete [] false _
  | cbEncode r =>
    obtain rfl := Host.Outcome.next.inj hexec
    exact reportsOnly_complete _ false _
  | cbDecode => exact reportsOnly_of_execCbDecode hexec
  | frRank => exact reportsOnly_of_execFrRank hexec
  | dictSer => exact reportsOnly_of_execDictSer hexec
  | dictDes => exact reportsOnly_of_execDictDes hexec
  | egcEnc => exact reportsOnly_of_execEgcEnc hexec
  | egcDec => exact reportsOnly_of_execEgcDec hexec

end Sys2Proof.Proofs
end
